-- ==== Sys2Proof/Word.lean ====
section
/-! DEFINITION. The word types of the machine and the range of a signed 16-bit value (spec/00_scope.md R8, R14). -/

namespace Sys2Proof

/-- A register, a data-memory cell, `PC`, or a label-table entry: 16 bits (R8, R23, R93).
Read as a number it is two's complement, `BitVec.toInt` (R14 `sext_16`). -/
abbrev Word := BitVec 16

/-- One instruction word of the ROM: 64 bits (R82). -/
abbrev RomWord := BitVec 64

/-- R14: `I16` is the set −32768..32767. -/
abbrev InI16 (v : Int) : Prop := -32768 ≤ v ∧ v ≤ 32767

/-- R14 `tc16`: the 16-bit two's complement field of an integer (used on values of `I16`). -/
def tc16 (v : Int) : Word := BitVec.ofInt 16 v

end Sys2Proof
end

