-- ==== Sys2Proof/Config.lean ====
section
/-! DEFINITION. What is fixed for the hardware (spec/00_scope.md R8) and what is fixed for one executor when it is
constructed (R9): the instruction ROM, the label table and the values the registers and flags take at reset. -/

namespace Sys2Proof

/-- R8: `MEM_CELLS = 256` data cells, addresses 0..255. -/
abbrev memCells : Nat := 256

/-- R8: `SP_EMPTY = 256`, the stack pointer of the empty stack. -/
abbrev spEmpty : Nat := 256

/-- R9: `0 <= ROM_LEN <= 32767`. -/
abbrev romLenMax : Nat := 32767

/-- R9, R93: `0 <= NLABELS <= 65535`. -/
abbrev nLabelsMax : Nat := 65535

/-- The four general registers `R0..R3`, each 16 bits (R21). -/
structure RegFile where
  r0 : Word
  r1 : Word
  r2 : Word
  r3 : Word
  deriving DecidableEq, Repr

/-- R9: the parameters of one executor, immutable for its lifetime. -/
structure Params where
  /-- The instruction list; `ROM_LEN` is its length (R9, R50(b)). -/
  rom : List RomWord
  /-- The label table; `NLABELS` is its length (R9, R93). -/
  lt : List Word
  /-- `RESET_R[0..3]` (R44). -/
  resetR : RegFile
  /-- `RESET_ZF` (R44). -/
  resetZf : Bool
  /-- `RESET_SF` (R44). -/
  resetSf : Bool
  deriving DecidableEq, Repr

/-- R9: the bounds on the two lengths; a longer program or table is refused at load (spec/93 U10). -/
abbrev Params.wf (p : Params) : Prop := p.rom.length ≤ romLenMax ∧ p.lt.length ≤ nLabelsMax

/-- The parameters of the machine right after reset with nothing loaded: the empty program (spec/95 P7) and the
instantiation `RESET_R[i] = 0`, `RESET_ZF = RESET_SF = false`, which R44 leaves open and calls the usual one.
PRESUMED (R44, spec/93 K2; log entry 1), unsafe. -/
def Params.unloaded : Params :=
  { rom := [], lt := [], resetR := ⟨0, 0, 0, 0⟩, resetZf := false, resetSf := false }

end Sys2Proof
end

