-- ==== Sys2Proof/Machine/Memory.lean ====
section
/-! DEFINITION. Data memory (spec/20_memory.md R50(a), R51, R57): 256 cells of 16 bits, reached only as whole cells.
It is held as a list of (address, cell) pairs in one canonical form: addresses strictly rising, all below 256, and no
entry equal to what an unlisted address reads as. The smallest addressable unit is the cell, not the byte (R51, R55). -/

namespace Sys2Proof.Machine

/-- Data memory as a sparse list of cells. -/
abbrev Memory := List (Nat × Word)

/-- What a cell that the list does not name reads as: 0, the value of every cell after reset (R44, R57). -/
def unlistedCell : Word := 0

/-- R57: the value of one cell. -/
def Memory.read : Memory → Nat → Word
  | [], _ => unlistedCell
  | (b, w) :: m, a => if a = b then w else Memory.read m a

/-- The list without the entry of one address: that cell then reads as unlisted. -/
def Memory.erase (m : Memory) (a : Nat) : Memory := m.filter fun c => c.1 ≠ a

/-- The list with an entry put before the first one of a greater address. -/
def Memory.insert : Memory → Nat → Word → Memory
  | [], a, v => [(a, v)]
  | (b, w) :: m, a, v => if a < b then (a, v) :: (b, w) :: m else (b, w) :: Memory.insert m a v

/-- R57: one cell written, every other left as it was. Writing what an unlisted cell reads as removes the entry, so the
canonical form is kept. -/
def Memory.write (m : Memory) (a : Nat) (v : Word) : Memory :=
  if v = unlistedCell then m.erase a else (m.erase a).insert a v

/-- The canonical form: equal memories are equal lists. -/
abbrev Memory.wf (m : Memory) : Prop :=
  m.Pairwise (fun x y => x.1 < y.1) ∧ ∀ c ∈ m, c.1 < memCells ∧ c.2 ≠ unlistedCell

end Sys2Proof.Machine
end

