-- ==== Sys2Proof/Syntax.lean ====
section
/-! DEFINITION. The instructions as the executor sees them (spec/30_encoding.md R80, R84, R88; spec/20_memory.md R62):
an opcode, an operand list whose tokens are already classified, and a source line. -/

namespace Sys2Proof

/-- The general register names (R21). -/
inductive Reg where
  | r0 | r1 | r2 | r3
  deriving DecidableEq, Repr

/-- The six operand forms of R62. -/
inductive Operand where
  /-- `REG r`: the register itself. -/
  | reg (r : Reg)
  /-- `IMM n`, `n` in `I16`: held as the 16-bit field that R87 sign-extends. -/
  | imm (n : Word)
  /-- `DIR a`: the data cell `a`, `a` in 0..65535. -/
  | dir (a : Nat)
  /-- `IND r`: the data cell whose address is the register's value. -/
  | ind (r : Reg)
  /-- `NAME k`: a label id, `k` in 0..65535. -/
  | name (k : Nat)
  /-- `BAD`: an empty or undecodable operand slot. -/
  | bad
  deriving DecidableEq, Repr

/-- The operand list of an instruction as the word's `NOPS` carries it, saturated at three (R84): the tokens past the
second are dropped, and a slot at a position `NOPS` does not reach is not there (R88). -/
inductive Operands where
  | zero
  | one (a : Operand)
  | two (a b : Operand)
  | more (a b : Operand)
  deriving DecidableEq, Repr

/-- R84: the length of the operand list, saturated at 3. -/
def Operands.count : Operands → Nat
  | .zero => 0
  | .one _ => 1
  | .two _ _ => 2
  | .more _ _ => 3

/-- R80, R90: one constructor per row of the opcode table. Every opcode takes any operand list: a wrong count is still
that instruction, and it faults when it runs (R90, R124). `line` is the source line, 1..65535; 0 means none (R83, R85). -/
inductive Instr where
  | mov  (ops : Operands) (line : Nat)
  | push (ops : Operands) (line : Nat)
  | pop  (ops : Operands) (line : Nat)
  | add  (ops : Operands) (line : Nat)
  | sub  (ops : Operands) (line : Nat)
  | mol  (ops : Operands) (line : Nat)
  | div  (ops : Operands) (line : Nat)
  | inc  (ops : Operands) (line : Nat)
  | dec  (ops : Operands) (line : Nat)
  | and  (ops : Operands) (line : Nat)
  | or   (ops : Operands) (line : Nat)
  | not  (ops : Operands) (line : Nat)
  | jmp  (ops : Operands) (line : Nat)
  | jz   (ops : Operands) (line : Nat)
  | jnz  (ops : Operands) (line : Nat)
  | js   (ops : Operands) (line : Nat)
  | cmp  (ops : Operands) (line : Nat)
  | call (ops : Operands) (line : Nat)
  | ret  (ops : Operands) (line : Nat)
  | out  (ops : Operands) (line : Nat)
  | hlt  (ops : Operands) (line : Nat)
  deriving DecidableEq, Repr

/-- The operand list of an instruction (R80 `operands`). -/
def Instr.operands : Instr → Operands
  | .mov o _ | .push o _ | .pop o _ | .add o _ | .sub o _ | .mol o _ | .div o _ | .inc o _ | .dec o _ | .and o _
  | .or o _ | .not o _ | .jmp o _ | .jz o _ | .jnz o _ | .js o _ | .cmp o _ | .call o _ | .ret o _ | .out o _
  | .hlt o _ => o

/-- The source line of an instruction (R80 `sourceLine`). -/
def Instr.line : Instr → Nat
  | .mov _ l | .push _ l | .pop _ l | .add _ l | .sub _ l | .mol _ l | .div _ l | .inc _ l | .dec _ l | .and _ l
  | .or _ l | .not _ l | .jmp _ l | .jz _ l | .jnz _ l | .js _ l | .cmp _ l | .call _ l | .ret _ l | .out _ l
  | .hlt _ l => l

end Sys2Proof
end

