-- ==== Sys2Proof/Machine/State.lean ====
section
/-! DEFINITION. The architectural state (spec/10_state.md R20), the fault taxonomy (spec/60_exceptions.md R210, R211),
construction and reset (spec/70_reset_and_hazards.md R240, R241). -/

namespace Sys2Proof.Machine

/-- The ten runtime fault kinds, in the order of R210. Each is SAFE: the spec names it, and it changes no state (R126). -/
inductive FaultTag where
  /-- Raised by the step's decode when `OPC` is 0 or 22..31 (R214). Safe. -/
  | unknownInstruction
  /-- Raised by all 21 instructions when the operand count is not the opcode's (R215). Safe. -/
  | operandCountMismatch
  /-- Raised by the operand resolver: a `NAME` or `BAD` operand read or written, an immediate written (R216). Safe. -/
  | invalidOperand
  /-- Raised by the operand resolver: a direct or indirect address outside 0..255 (R217). Safe. -/
  | invalidMemoryAccess
  /-- Raised by `DIV` when `src` is 0 (R218). Safe. -/
  | divisionByZero
  /-- Raised by `ADD SUB MOL INC DEC` when the exact result is outside −32768..32767 (R219). Safe. -/
  | arithmeticOverflow
  /-- Raised by `PUSH CALL` when `SP == 0` (R220). Safe. -/
  | stackOverflow
  /-- Raised by `POP RET` when `SP == 256` (R221). Safe. -/
  | stackUnderflow
  /-- Raised by `JMP CALL`, and by `JZ JNZ JS` when taken, when the target is not in the label table (R222). Safe. -/
  | undefinedLabel
  /-- Raised by the step's fetch when `PC < 0` or `PC >= ROM_LEN` (R223). Safe. -/
  | executionOutOfBounds
  deriving DecidableEq, Repr

/-- R42, R212: a runtime fault is its taxonomy tag and an optional source line, and nothing more. -/
inductive Fault where
  /-- Raised by the step or by the instruction it runs, through the one operation `raise` (Machine/Ops.lean). The state
  after it is the state before the step (R126): the outcome carries none. Safe. -/
  | runtime (tag : FaultTag) (sourceLine : Option Nat)
  deriving DecidableEq, Repr

/-- Reasons for which an instruction has no meaning in the model. No instruction of this model is refused. -/
inductive Refusal where
  /-- Raised by nobody: every opcode-table row has its meaning. It is the host's name for an arm not written yet. Safe. -/
  | notModelled (mnemonic : String)
  deriving DecidableEq, Repr

/-- R20: the complete architectural state of one executor, and with it the executor's immutable parameters. -/
structure State where
  /-- `R0..R3` (R21). -/
  regs : RegFile
  /-- `PC`: a signed 16-bit index into the instruction list (R23). -/
  pc : Word
  /-- `SP`: 0..256, 256 when the stack is empty (R26). -/
  sp : Fin 257
  /-- `ZF` (R28). -/
  zf : Bool
  /-- `SF` (R28). -/
  sf : Bool
  /-- `halted` (R34). -/
  halted : Bool
  /-- `Memory[0..255]`, data and stack (R37). -/
  mem : Memory
  /-- `OutputLog`, oldest entry first (R36). -/
  out : List Word
  /-- `ROM`, `LT` and the reset values: no state of the executor but its immutable inputs (R9, R20), carried here because
  a step takes one argument. No step and no `RESET` changes them. -/
  params : Params
  deriving DecidableEq, Repr

/-- R240, R241, R44: the state of an executor with these parameters after construction and after every `RESET`. -/
def State.construct (p : Params) : State :=
  { regs := p.resetR
    pc := 0
    sp := ⟨spEmpty, by decide⟩
    zf := p.resetZf
    sf := p.resetSf
    halted := false
    mem := []
    out := []
    params := p }

/-- The machine right after reset with nothing loaded: the empty program (spec/95 P7). The registers and flags, whose
reset values R44 leaves as parameters, hold 0 and false (PRESUMED, log entry 1, unsafe). -/
def State.reset : State := State.construct Params.unloaded

end Sys2Proof.Machine
end

