-- ==== Sys2Proof/Machine/Ops.lean ====
section
/-! DEFINITION. The named operations over registers, memory, the stack and the program counter, and the one operation
that raises a fault (spec/00_scope.md R15, spec/40_step_cycle.md R124 to R127). -/

namespace Sys2Proof.Machine

/-- What an instruction or the machine's step answers. -/
abbrev StepOutcome := Host.Outcome State Fault Refusal

/-- R15: `x[i]`, the value of a general register. -/
def State.reg (s : State) : Reg → Word
  | .r0 => s.regs.r0
  | .r1 => s.regs.r1
  | .r2 => s.regs.r2
  | .r3 => s.regs.r3

/-- R15: `x[i] <- v`. No register is hardwired (R21). -/
def State.setReg (s : State) (r : Reg) (v : Word) : State :=
  match r with
  | .r0 => { s with regs := { s.regs with r0 := v } }
  | .r1 => { s with regs := { s.regs with r1 := v } }
  | .r2 => { s with regs := { s.regs with r2 := v } }
  | .r3 => { s with regs := { s.regs with r3 := v } }

/-- R15: `MemRead(addr, 1)`; callers check `0 <= addr <= 255` first. -/
def State.memRead (s : State) (a : Nat) : Word := s.mem.read a

/-- R15: `MemWrite(addr, 1, v)`; callers check `0 <= addr <= 255` first. -/
def State.memWrite (s : State) (a : Nat) (v : Word) : State := { s with mem := s.mem.write a v }

/-- R15: `pc <- target`. -/
def State.jumpTo (s : State) (target : Word) : State := { s with pc := target }

/-- The index after the instruction being executed, `pc + 1`. It does not wrap where an instruction is fetched (R25). -/
def State.nextPc (s : State) : Word := s.pc + 1

/-- R125: `pc <- pc + 1`. -/
def State.advance (s : State) : State := s.jumpTo s.nextPc

/-- R142, R188: the test and the two writes of a push, `if sp <= 0: raise StackOverflow`, then `sp <- sp - 1` and
`MemWrite(sp, 1, v)` at the new `sp`. The value is stored as it is. -/
def State.push (s : State) (v : Word) : Except FaultTag State :=
  if s.sp.val ≤ 0 then .error .stackOverflow
  else .ok { s with sp := ⟨s.sp.val - 1, by omega⟩, mem := s.mem.write (s.sp.val - 1) v }

/-- R144, R190: the test of a pop, the value it reads and the moved `sp`: `if sp >= 256: raise StackUnderflow`, then
`MemRead(sp, 1)` and `sp <- sp + 1`. The popped cell keeps its value. -/
def State.pop (s : State) : Except FaultTag (Word × State) :=
  if h : s.sp.val ≥ 256 then .error .stackUnderflow
  else .ok (s.memRead s.sp.val, { s with sp := ⟨s.sp.val + 1, by omega⟩ })

/-- R126, R213, R225: taking a fault is returning it. It carries the tag, and the source line of the fetched word unless
that is 0; where nothing was fetched the step passes 0. Nothing is saved, no handler address is loaded, no state changes
(R127): the outcome carries no state because the state after it is the state before the step (log entry 3). There is no
return from it (R226): the host steps again, which meets the same fault, or resets (Machine/Commands.lean). -/
def raise (tag : FaultTag) (line : Nat) : StepOutcome :=
  .fault (.runtime tag (if line = 0 then none else some line))

/-- R125, R126: the end of a handler. It committed its writes, or raised with nothing changed. -/
def commit (line : Nat) : Except FaultTag State → StepOutcome
  | .ok s => .next s
  | .error tag => raise tag line

/-- R124: the operand-count test of an opcode that expects none. -/
def withNone (ops : Operands) (h : Except FaultTag State) : Except FaultTag State :=
  match ops with
  | .zero => h
  | .one _ | .two _ _ | .more _ _ => .error .operandCountMismatch

/-- R124: the operand-count test of an opcode that expects one. -/
def withOne (ops : Operands) (h : Operand → Except FaultTag State) : Except FaultTag State :=
  match ops with
  | .one a => h a
  | .zero | .two _ _ | .more _ _ => .error .operandCountMismatch

/-- R124: the operand-count test of an opcode that expects two. -/
def withTwo (ops : Operands) (h : Operand → Operand → Except FaultTag State) : Except FaultTag State :=
  match ops with
  | .two a b => h a b
  | .zero | .one _ | .more _ _ => .error .operandCountMismatch

end Sys2Proof.Machine
end

