-- ==== Sys2Proof/Machine/Operands.lean ====
section
/-! DEFINITION. The operand resolver (spec/20_memory.md R60 to R67) and the label resolver (spec/30_encoding.md R93 to
R96). -/

namespace Sys2Proof.Machine

/-- R60: saturation to −32768..32767. -/
def clamp (v : Int) : Int := if v < -32768 then -32768 else if v > 32767 then 32767 else v

/-- R51, R64, R65: an address outside 0..255 raises `InvalidMemoryAccess`. -/
def checkAddress (a : Int) : Except FaultTag Nat :=
  if a < 0 ∨ a > 255 then .error .invalidMemoryAccess else .ok a.toNat

/-- A place an operand can be written to: a general register or a data cell. -/
inductive Location where
  | reg (r : Reg)
  | cell (a : Nat)
  deriving DecidableEq, Repr

/-- R63: the cell a direct or indirect operand names, checked; the other forms have no effective address and raise
`InvalidOperand`. -/
def effectiveAddress (op : Operand) (s : State) : Except FaultTag Nat :=
  match op with
  | .dir a => checkAddress a
  | .ind r => checkAddress (s.reg r).toInt
  | .reg _ | .imm _ | .name _ | .bad => .error .invalidOperand

/-- R64: `ReadOperand`. It changes no state. -/
def readOperand (op : Operand) (s : State) : Except FaultTag Word :=
  match op with
  | .reg r => .ok (s.reg r)
  | .imm n => .ok n
  | .dir _ | .ind _ => (effectiveAddress op s).map s.memRead
  | .name _ | .bad => .error .invalidOperand

/-- R65: where `WriteOperand` writes, or what it raises. -/
def writeTarget (op : Operand) (s : State) : Except FaultTag Location :=
  match op with
  | .reg r => .ok (.reg r)
  | .dir _ | .ind _ => (effectiveAddress op s).map .cell
  | .imm _ | .name _ | .bad => .error .invalidOperand

/-- One state write: a register or a cell. -/
def State.store (s : State) (loc : Location) (v : Word) : State :=
  match loc with
  | .reg r => s.setReg r v
  | .cell a => s.memWrite a v

/-- R65: `WriteOperand`, for any integer: `clamp` on every write; the test for raising comes before the write. -/
def writeOperand (op : Operand) (v : Int) (s : State) : Except FaultTag State :=
  (writeTarget op s).map fun loc => s.store loc (tc16 (clamp v))

/-- R93: `E[15]`, the entry is valid. -/
def labelValid (e : Word) : Bool := e.getLsbD 15

/-- R93: `E[14:0]`, the target index, 0..32767. -/
def labelTarget (e : Word) : Word := (e.extractLsb' 0 15).zeroExtend 16

/-- R96: `Lookup`. An id at or above `NLABELS`, an entry that is not valid, and an operand that is no name all raise
`UndefinedLabel`. The target is not compared with `ROM_LEN` (R94). -/
def lookup (op : Operand) (s : State) : Except FaultTag Word :=
  match op with
  | .name k =>
    match s.params.lt[k]? with
    | some e => if labelValid e then .ok (labelTarget e) else .error .undefinedLabel
    | none => .error .undefinedLabel
  | .reg _ | .imm _ | .dir _ | .ind _ | .bad => .error .undefinedLabel

end Sys2Proof.Machine
end

