-- ==== Sys2Proof/Machine/Flags.lean ====
section
/-! DEFINITION. The flags and the arithmetic and logic unit (spec/10_state.md R28 to R31, spec/40_step_cycle.md R130,
spec/42_arithmetic.md R156, R162, spec/43_logic_compare.md R168). Arithmetic is exact, over the integers. -/

namespace Sys2Proof.Machine

/-- R31: `SetFlags(v)`: `zf <- (v == 0); sf <- (v < 0)`, for any integer. -/
def State.setFlags (s : State) (v : Int) : State := { s with zf := decide (v = 0), sf := decide (v < 0) }

/-- R15: `fdiv(a, b)`, the floor of the rational `a/b` for `b != 0`. -/
def fdiv (a b : Int) : Int := Int.fdiv a b

/-- R150 to R154: the two-sided overflow test on an exact result. -/
def checkOverflow (r : Int) : Except FaultTag Int :=
  if r < -32768 ∨ r > 32767 then .error .arithmeticOverflow else .ok r

/-- R158: `INC`'s one-sided test: only the upper bound. -/
def checkUpper (r : Int) : Except FaultTag Int :=
  if r > 32767 then .error .arithmeticOverflow else .ok r

/-- R160: `DEC`'s one-sided test: only the lower bound. -/
def checkLower (r : Int) : Except FaultTag Int :=
  if r < -32768 then .error .arithmeticOverflow else .ok r

/-- R156: `DIV`'s own test and its exact floored quotient. -/
def checkedQuotient (d s : Int) : Except FaultTag Int :=
  if s = 0 then .error .divisionByZero else .ok (fdiv d s)

/-- R168: `band(a, b) = sext_16(tc16(a) & tc16(b))`. -/
def band (a b : Word) : Int := (a &&& b).toInt

/-- R168: `bor(a, b) = sext_16(tc16(a) | tc16(b))`. -/
def bor (a b : Word) : Int := (a ||| b).toInt

/-- R168: `bnot(a) = sext_16(tc16(a) ^ 0xFFFF)`. -/
def bnot (a : Word) : Int := (a ^^^ 0xFFFF#16).toInt

/-- The common end of the instructions that write their destination and both flags (R150 to R174): the resolver's write,
then `SetFlags` of the exact result, then `pc + 1`. -/
def writeResult (dest : Operand) (r : Int) (s : State) : Except FaultTag State :=
  (writeOperand dest r s).map fun t => (t.setFlags r).advance

/-- R74, R150: the two-operand instructions that read `dest`, then `src`, then make their result or raise, then write. -/
def binary (f : Word → Word → Except FaultTag Int) (s : State) (dest src : Operand) : Except FaultTag State := do
  let d ← readOperand dest s
  let v ← readOperand src s
  let r ← f d v
  writeResult dest r s

/-- R158, R174: the one-operand instructions that read `dest`, make their result or raise, then write. -/
def unary (f : Word → Except FaultTag Int) (s : State) (dest : Operand) : Except FaultTag State := do
  let d ← readOperand dest s
  let r ← f d
  writeResult dest r s

end Sys2Proof.Machine
end

