-- ==== Sys2Proof/Machine/Arithmetic.lean ====
section
/-! DEFINITION. `ADD`, `SUB`, `MOL`, `DIV`, `INC`, `DEC` (spec/42_arithmetic.md). All write both flags from the exact
result. An out-of-range result is a fault for all but `DIV`, whose write saturates (R163). -/

namespace Sys2Proof.Machine

/-- R150: `ADD dest, src`. -/
def execAdd (ops : Operands) (line : Nat) (s : State) : StepOutcome :=
  commit line <| withTwo ops <| binary (fun d v => checkOverflow (d.toInt + v.toInt)) s

/-- R152: `SUB dest, src`. -/
def execSub (ops : Operands) (line : Nat) (s : State) : StepOutcome :=
  commit line <| withTwo ops <| binary (fun d v => checkOverflow (d.toInt - v.toInt)) s

/-- R154: `MOL dest, src`, signed multiplication. -/
def execMol (ops : Operands) (line : Nat) (s : State) : StepOutcome :=
  commit line <| withTwo ops <| binary (fun d v => checkOverflow (d.toInt * v.toInt)) s

/-- R156: `DIV dest, src`, rounding toward minus infinity; no overflow test. -/
def execDiv (ops : Operands) (line : Nat) (s : State) : StepOutcome :=
  commit line <| withTwo ops <| binary (fun d v => checkedQuotient d.toInt v.toInt) s

/-- R158: `INC dest`. -/
def execInc (ops : Operands) (line : Nat) (s : State) : StepOutcome :=
  commit line <| withOne ops <| unary (fun d => checkUpper (d.toInt + 1)) s

/-- R160: `DEC dest`. -/
def execDec (ops : Operands) (line : Nat) (s : State) : StepOutcome :=
  commit line <| withOne ops <| unary (fun d => checkLower (d.toInt - 1)) s

end Sys2Proof.Machine
end

