-- ==== Sys2Proof/Machine/ControlTransfer.lean ====
section
/-! DEFINITION. `JMP`, `JZ`, `JNZ`, `JS`, `CALL`, `RET` (spec/44_control_transfer.md). A target is always a label,
resolved through the label table. None of them writes a flag. -/

namespace Sys2Proof.Machine

/-- R182: a conditional jump. The label is looked up only if the jump is taken. -/
def jumpIf (taken : Bool) (s : State) (a : Operand) : Except FaultTag State :=
  if taken then (lookup a s).map s.jumpTo else .ok s.advance

/-- R180: `JMP label`. -/
def execJmp (ops : Operands) (line : Nat) (s : State) : StepOutcome :=
  commit line <| withOne ops fun a => (lookup a s).map s.jumpTo

/-- R182: `JZ label`. -/
def execJz (ops : Operands) (line : Nat) (s : State) : StepOutcome :=
  commit line <| withOne ops <| jumpIf s.zf s

/-- R184: `JNZ label`. -/
def execJnz (ops : Operands) (line : Nat) (s : State) : StepOutcome :=
  commit line <| withOne ops <| jumpIf (!s.zf) s

/-- R186: `JS label`. -/
def execJs (ops : Operands) (line : Nat) (s : State) : StepOutcome :=
  commit line <| withOne ops <| jumpIf s.sf s

/-- R188: `CALL label`. `StackOverflow` is tested before the label, the label before anything is pushed; the return
address is `pc + 1`. The push writes nothing that the lookup reads, so making it first and jumping last is the rule's
order. -/
def execCall (ops : Operands) (line : Nat) (s : State) : StepOutcome :=
  commit line <| withOne ops fun a => do
    let u ← s.push s.nextPc
    let t ← lookup a s
    return u.jumpTo t

/-- R190: `RET`. The popped value is not checked. -/
def execRet (ops : Operands) (line : Nat) (s : State) : StepOutcome :=
  commit line <| withNone ops do
    let (t, u) ← s.pop
    return u.jumpTo t

end Sys2Proof.Machine
end

