-- ==== Sys2Proof/Machine/DataMovement.lean ====
section
/-! DEFINITION. `MOV`, `PUSH`, `POP` (spec/41_data_movement.md). None of them reads or writes a flag. -/

namespace Sys2Proof.Machine

/-- R140: `MOV dest, src`. The read is tested before the write. -/
def execMov (ops : Operands) (line : Nat) (s : State) : StepOutcome :=
  commit line <| withTwo ops fun a b => do
    let v ← readOperand b s
    let t ← writeOperand a v.toInt s
    return t.advance

/-- R142: `PUSH src`. The read is tested before the stack. -/
def execPush (ops : Operands) (line : Nat) (s : State) : StepOutcome :=
  commit line <| withOne ops fun a => do
    let v ← readOperand a s
    let t ← s.push v
    return t.advance

/-- R144: `POP dest`. The stack is tested before the write. -/
def execPop (ops : Operands) (line : Nat) (s : State) : StepOutcome :=
  commit line <| withOne ops fun a => do
    let (v, t) ← s.pop
    let u ← writeOperand a v.toInt t
    return u.advance

end Sys2Proof.Machine
end

