-- ==== Sys2Proof/Machine/Logic.lean ====
section
/-! DEFINITION. `AND`, `OR`, `NOT`, `CMP` (spec/43_logic_compare.md). All write both flags; none raises
`ArithmeticOverflow`. -/

namespace Sys2Proof.Machine

/-- R170: `AND dest, src`. -/
def execAnd (ops : Operands) (line : Nat) (s : State) : StepOutcome :=
  commit line <| withTwo ops <| binary (fun d v => .ok (band d v)) s

/-- R172: `OR dest, src`. -/
def execOr (ops : Operands) (line : Nat) (s : State) : StepOutcome :=
  commit line <| withTwo ops <| binary (fun d v => .ok (bor d v)) s

/-- R174: `NOT dest`. -/
def execNot (ops : Operands) (line : Nat) (s : State) : StepOutcome :=
  commit line <| withOne ops <| unary (fun d => .ok (bnot d)) s

/-- R176: `CMP op1, op2`: the flags of the exact difference, which is not stored. -/
def execCmp (ops : Operands) (line : Nat) (s : State) : StepOutcome :=
  commit line <| withTwo ops fun a b => do
    let x ← readOperand a s
    let y ← readOperand b s
    return (s.setFlags (x.toInt - y.toInt)).advance

end Sys2Proof.Machine
end

