-- ==== Sys2Proof/Machine/System.lean ====
section
/-! DEFINITION. `OUT`, `HLT` (spec/45_system.md). Neither writes a flag. -/

namespace Sys2Proof.Machine

/-- R200: `out <- out ++ [v]`, appended at the end of the output log, which has no capacity limit (R36). -/
def State.emit (s : State) (v : Word) : State := { s with out := s.out ++ [v] }

/-- R200: `OUT src`. -/
def execOut (ops : Operands) (line : Nat) (s : State) : StepOutcome :=
  commit line <| withOne ops fun a => do
    let v ← readOperand a s
    return (s.emit v).advance

/-- R202: `HLT`. The program counter is not written. -/
def execHlt (ops : Operands) (line : Nat) (s : State) : StepOutcome :=
  commit line <| withNone ops <| .ok { s with halted := true }

end Sys2Proof.Machine
end

