-- ==== Sys2Proof/Machine/Dispatch.lean ====
section
/-! DEFINITION. The dispatch of an instruction to its meaning (spec/40_step_cycle.md R123), one arm per opcode. -/

namespace Sys2Proof.Machine

/-- R129: run the handler of the instruction. -/
def exec (i : Instr) (s : State) : Host.Outcome State Fault Refusal :=
  match i with
  | .mov ops line => Sys2Proof.Machine.execMov ops line s
  | .push ops line => Sys2Proof.Machine.execPush ops line s
  | .pop ops line => Sys2Proof.Machine.execPop ops line s
  | .add ops line => Sys2Proof.Machine.execAdd ops line s
  | .sub ops line => Sys2Proof.Machine.execSub ops line s
  | .mol ops line => Sys2Proof.Machine.execMol ops line s
  | .div ops line => Sys2Proof.Machine.execDiv ops line s
  | .inc ops line => Sys2Proof.Machine.execInc ops line s
  | .dec ops line => Sys2Proof.Machine.execDec ops line s
  | .and ops line => Sys2Proof.Machine.execAnd ops line s
  | .or ops line => Sys2Proof.Machine.execOr ops line s
  | .not ops line => Sys2Proof.Machine.execNot ops line s
  | .jmp ops line => Sys2Proof.Machine.execJmp ops line s
  | .jz ops line => Sys2Proof.Machine.execJz ops line s
  | .jnz ops line => Sys2Proof.Machine.execJnz ops line s
  | .js ops line => Sys2Proof.Machine.execJs ops line s
  | .cmp ops line => Sys2Proof.Machine.execCmp ops line s
  | .call ops line => Sys2Proof.Machine.execCall ops line s
  | .ret ops line => Sys2Proof.Machine.execRet ops line s
  | .out ops line => Sys2Proof.Machine.execOut ops line s
  | .hlt ops line => Sys2Proof.Machine.execHlt ops line s

end Sys2Proof.Machine
end

