-- ==== Sys2Proof/WellFormed.lean ====
section
/-! DEFINITION. The instructions a ROM word can carry: every field within its width (spec/30_encoding.md R83, R85, R87). -/

namespace Sys2Proof

/-- R62, R87: a direct address and a label id are 16-bit unsigned fields. -/
def Operand.wellFormed : Operand → Bool
  | .dir a => decide (a ≤ 65535)
  | .name k => decide (k ≤ 65535)
  | .reg _ | .imm _ | .ind _ | .bad => true

/-- Every operand the list keeps is well formed. -/
def Operands.wellFormed : Operands → Bool
  | .zero => true
  | .one a => a.wellFormed
  | .two a b | .more a b => a.wellFormed && b.wellFormed

/-- R83, R85: the operands are well formed and the source line fits its 16-bit field. A wrong operand count is no
ill-formedness: such a word is that instruction (R90). -/
def Instr.wellFormed (i : Instr) : Bool :=
  i.operands.wellFormed && decide (i.line ≤ 65535)

end Sys2Proof
end

