-- ==== Sys2Proof/Decode.lean ====
section
/-! DEFINITION. Decoding one 64-bit ROM word and encoding one instruction (spec/30_encoding.md R82 to R92).
The decoder is total: it answers an instruction, or the reason it has none. -/

namespace Sys2Proof

/-- R83: the bits `W[lo+n-1:lo]` of a ROM word. -/
def romField (w : RomWord) (lo n : Nat) : BitVec n := w.extractLsb' lo n

/-- R83: `OPC = W[63:59]`. -/
def opcOf (w : RomWord) : Nat := (romField w 59 5).toNat

/-- R83: `NOPS = W[58:57]`. -/
def nopsOf (w : RomWord) : Nat := (romField w 57 2).toNat

/-- R83: `LINE = W[15:0]`. -/
def lineOf (w : RomWord) : Nat := (romField w 0 16).toNat

/-- R87: `r = V[1:0]`; `V[15:2]` is ignored. -/
def regOfValue (v : Word) : Reg :=
  match (v.extractLsb' 0 2).toNat with
  | 0 => .r0
  | 1 => .r1
  | 2 => .r2
  | _ => .r3

/-- R86, R87, R88: the operand form of a slot inside the operand count. `NONE` (0) and the reserved modes 6 and 7 give
`BAD`. -/
def operandOfSlot (mode : BitVec 3) (v : Word) : Operand :=
  match mode.toNat with
  | 1 => .reg (regOfValue v)
  | 2 => .imm v
  | 3 => .dir v.toNat
  | 4 => .ind (regOfValue v)
  | 5 => .name v.toNat
  | _ => .bad

/-- R88: `operand(0)`, from `MA = W[56:54]` and `VA = W[53:38]`. -/
def slotA (w : RomWord) : Operand := operandOfSlot (romField w 54 3) (romField w 38 16)

/-- R88: `operand(1)`, from `MB = W[37:35]` and `VB = W[34:19]`. -/
def slotB (w : RomWord) : Operand := operandOfSlot (romField w 35 3) (romField w 19 16)

/-- R84, R88: the operand list; a slot at or past `NOPS` is ignored whatever it holds. -/
def operandsOf (w : RomWord) : Operands :=
  match nopsOf w with
  | 0 => .zero
  | 1 => .one (slotA w)
  | 2 => .two (slotA w) (slotB w)
  | _ => .more (slotA w) (slotB w)

/-- R90: the opcode map, read from number to instruction; `none` for the numbers that name none (R91). -/
def instrOfOpc (opc : Nat) (ops : Operands) (line : Nat) : Option Instr :=
  match opc with
  | 1 => some (.mov ops line)
  | 2 => some (.push ops line)
  | 3 => some (.pop ops line)
  | 4 => some (.add ops line)
  | 5 => some (.sub ops line)
  | 6 => some (.mol ops line)
  | 7 => some (.div ops line)
  | 8 => some (.inc ops line)
  | 9 => some (.dec ops line)
  | 10 => some (.and ops line)
  | 11 => some (.or ops line)
  | 12 => some (.not ops line)
  | 13 => some (.jmp ops line)
  | 14 => some (.jz ops line)
  | 15 => some (.jnz ops line)
  | 16 => some (.js ops line)
  | 17 => some (.cmp ops line)
  | 18 => some (.call ops line)
  | 19 => some (.ret ops line)
  | 20 => some (.out ops line)
  | 21 => some (.hlt ops line)
  | _ => none

/-- Why a word is no instruction. -/
inductive DecodeReject where
  /-- R91: `OPC` is 0 or 22..31. It keeps the word's `LINE`, which the fault carries (R123). -/
  | unknownOpcode (opc : Nat) (line : Nat)
  deriving DecidableEq, Repr

/-- R90, R91: the row is selected by `OPC` alone; `NOPS` takes no part. `RSV` is never looked at (R92). -/
def decode (w : RomWord) : Except DecodeReject Instr :=
  match instrOfOpc (opcOf w) (operandsOf w) (lineOf w) with
  | some i => .ok i
  | none => .error (.unknownOpcode (opcOf w) (lineOf w))

/-- R90: the opcode map, read from instruction to number. -/
def opcOfInstr : Instr → Nat
  | .mov _ _ => 1
  | .push _ _ => 2
  | .pop _ _ => 3
  | .add _ _ => 4
  | .sub _ _ => 5
  | .mol _ _ => 6
  | .div _ _ => 7
  | .inc _ _ => 8
  | .dec _ _ => 9
  | .and _ _ => 10
  | .or _ _ => 11
  | .not _ _ => 12
  | .jmp _ _ => 13
  | .jz _ _ => 14
  | .jnz _ _ => 15
  | .js _ _ => 16
  | .cmp _ _ => 17
  | .call _ _ => 18
  | .ret _ _ => 19
  | .out _ _ => 20
  | .hlt _ _ => 21

/-- R87: the register number `r` in 0..3. -/
def regNumber : Reg → Nat
  | .r0 => 0
  | .r1 => 1
  | .r2 => 2
  | .r3 => 3

/-- R86: the mode code of an operand form. `BAD` is written as `NONE`, as the loader writes an empty token (R107). -/
def modeOf : Operand → Nat
  | .bad => 0
  | .reg _ => 1
  | .imm _ => 2
  | .dir _ => 3
  | .ind _ => 4
  | .name _ => 5

/-- R87: the value field of an operand form. -/
def valueOf : Operand → Nat
  | .bad => 0
  | .reg r => regNumber r
  | .imm n => n.toNat
  | .dir a => a
  | .ind r => regNumber r
  | .name k => k

/-- R83: `W = OPC*2^59 + NOPS*2^57 + MA*2^54 + VA*2^38 + MB*2^35 + VB*2^19 + RSV*2^16 + LINE`, with `RSV = 0`. -/
def packWord (opc nops ma va mb vb line : Nat) : RomWord :=
  BitVec.ofNat 64
    (opc * 2^59 + nops * 2^57 + ma * 2^54 + va * 2^38 + mb * 2^35 + vb * 2^19 + line)

/-- R83, R84, R88: the word of an instruction. An unused slot gets mode `NONE` and value 0. -/
def encode (i : Instr) : RomWord :=
  match i.operands with
  | .zero => packWord (opcOfInstr i) 0 0 0 0 0 i.line
  | .one a => packWord (opcOfInstr i) 1 (modeOf a) (valueOf a) 0 0 i.line
  | .two a b => packWord (opcOfInstr i) 2 (modeOf a) (valueOf a) (modeOf b) (valueOf b) i.line
  | .more a b => packWord (opcOfInstr i) 3 (modeOf a) (valueOf a) (modeOf b) (valueOf b) i.line

/-- The instruction the decoder reads from an opcode-table word of `nbits` bits. Every row of the table has the one
64-bit word (R82), bit 0 its least significant; a row of more bits than that is no word of this hardware. -/
def decodeTableWord (nbits w : Nat) : Option Instr :=
  if nbits ≤ 64 then (decode (BitVec.ofNat 64 (w % 2 ^ nbits))).toOption else none

end Sys2Proof
end

