-- ==== Sys2Proof/Machine/Fetch.lean ====
section
/-! DEFINITION. Fetch and decode (spec/40_step_cycle.md R122, R123), and placing a word where the next step fetches. -/

namespace Sys2Proof.Machine

/-- R122: the word the next step fetches; `none` when `pc < 0` or `pc >= ROM_LEN`. -/
def fetch (s : State) : Option RomWord :=
  if s.pc.toInt < 0 ∨ s.pc.toInt ≥ s.params.rom.length then none
  else s.params.rom[s.pc.toInt.toNat]?

/-- The ROM with `w` at index `n`: the word there replaced, or the list lengthened to reach it. The filler is the
all-zero word, which names no instruction (R91). -/
def romWith : List RomWord → Nat → RomWord → List RomWord
  | [], 0, w => [w]
  | _ :: ws, 0, w => w :: ws
  | [], n + 1, w => 0 :: romWith [] n w
  | x :: ws, n + 1, w => x :: romWith ws n w

/-- The index a word is placed at: `pc` where some ROM of at most 32767 words has it (R9), else 0. -/
def placeIndex (s : State) : Nat :=
  if s.pc.toInt < 0 ∨ s.pc.toInt ≥ romLenMax then 0 else s.pc.toInt.toNat

/-- `w` placed where the next step fetches: in the ROM at `pc`. `pc` moves only where no ROM has such an index, and
`halted` is cleared because a halted step fetches nothing (R121). -/
def State.withRomWord (s : State) (w : RomWord) : State :=
  { s with
    pc := BitVec.ofNat 16 (placeIndex s)
    halted := false
    params := { s.params with rom := romWith s.params.rom (placeIndex s) w } }

end Sys2Proof.Machine
end

