-- ==== Sys2Proof/Machine/Step.lean ====
section
/-! DEFINITION. One `STEP` (spec/40_step_cycle.md R120, R129). -/

namespace Sys2Proof.Machine

/-- R129: the halted test, the fetch bound test, decode, then the handler, which begins with the operand-count test. -/
def step (s : State) : Host.Outcome State Fault Refusal :=
  if s.halted then .next s
  else
    match fetch s with
    | none => raise .executionOutOfBounds 0
    | some w =>
      match decode w with
      | .error (.unknownOpcode _ line) => raise .unknownInstruction line
      | .ok i => exec i s

/-- The state with the opcode-table word `w` of `nbits` bits stored where `step` fetches its next instruction. -/
def State.withFetchWord (s : State) (nbits w : Nat) : State := s.withRomWord (BitVec.ofNat 64 (w % 2 ^ nbits))

end Sys2Proof.Machine
end

