-- ==== Sys2Proof/Machine/Assembler.lean ====
section
/-! DEFINITION. The loader: from source text to the ROM and the label table (spec/30_encoding.md R81, R84, R85, R93 to
R95, R100 to R110). It is no part of the executor (R4): it builds the parameters an executor is constructed from. -/

namespace Sys2Proof.Machine

/-- Text is a list of characters. -/
abbrev Text := List Char

/-- Why a text gives no program though every line has a form (spec/93 U9, U10, U23). -/
inductive LoadRefusal where
  /-- An immediate outside −32768..32767 (R107). -/
  | immediateRange
  /-- A direct address above 65535 (R107). -/
  | addressRange
  /-- A label defined twice (R110). -/
  | duplicateLabel
  /-- A label named like a mnemonic or a register (R110). -/
  | reservedLabel
  /-- More than 65535 source lines (R85). -/
  | tooManyLines
  /-- More than 32767 instructions (R9). -/
  | tooManyInstructions
  /-- More than 65535 labels (R93). -/
  | tooManyLabels
  deriving DecidableEq, Repr

/-- R106, R210: a text that fails to assemble builds nothing. The line is the 1-based source line. -/
inductive LoadError where
  | syntaxFault (line : Nat)
  | refused (why : LoadRefusal) (line : Nat)
  deriving DecidableEq, Repr

/-- White space inside a line (R103). -/
def isBlank (c : Char) : Bool := c == ' ' || c == '\t' || c == '\r'

/-- R103: surrounding white space trimmed. -/
def trim (t : Text) : Text := ((t.dropWhile isBlank).reverse.dropWhile isBlank).reverse

/-- The pieces of a text between occurrences of a character; always at least one. -/
def pieces (sep : Char) : Text → List Text
  | [] => [[]]
  | c :: cs =>
    if c == sep then [] :: pieces sep cs
    else match pieces sep cs with
      | [] => [[c]]
      | p :: ps => (c :: p) :: ps

/-- R101, R102: names are matched case-insensitively. -/
def foldCase (t : Text) : Text :=
  t.map fun c => if 'a'.toNat ≤ c.toNat ∧ c.toNat ≤ 'z'.toNat then Char.ofNat (c.toNat - 32) else c

/-- R105: digits are decimal. -/
def isDigit (c : Char) : Bool := '0'.toNat ≤ c.toNat && c.toNat ≤ '9'.toNat

/-- R110: a letter or `_`. -/
def isIdentStart (c : Char) : Bool :=
  c == '_' || ('a'.toNat ≤ c.toNat && c.toNat ≤ 'z'.toNat) || ('A'.toNat ≤ c.toNat && c.toNat ≤ 'Z'.toNat)

/-- R110: a letter, a digit or `_`. -/
def isIdentChar (c : Char) : Bool := isIdentStart c || isDigit c

/-- R101: the 21 mnemonics with their opcode numbers (R90). -/
def mnemonicTable : List (Text × Nat) :=
  [(['M','O','V'], 1), (['P','U','S','H'], 2), (['P','O','P'], 3), (['A','D','D'], 4), (['S','U','B'], 5),
   (['M','O','L'], 6), (['D','I','V'], 7), (['I','N','C'], 8), (['D','E','C'], 9), (['A','N','D'], 10)] ++
  [(['O','R'], 11), (['N','O','T'], 12), (['J','M','P'], 13), (['J','Z'], 14), (['J','N','Z'], 15),
   (['J','S'], 16), (['C','M','P'], 17), (['C','A','L','L'], 18), (['R','E','T'], 19), (['O','U','T'], 20),
   (['H','L','T'], 21)]

/-- R101: the opcode number a word names. -/
def mnemonicOpc (word : Text) : Option Nat := mnemonicTable.lookup (foldCase word)

/-- R105: the register token pattern, `R0`–`R3`, case-insensitive. -/
def registerToken (t : Text) : Option Reg :=
  match foldCase t with
  | ['R', '0'] => some .r0
  | ['R', '1'] => some .r1
  | ['R', '2'] => some .r2
  | ['R', '3'] => some .r3
  | _ => none

/-- R105, R110: a number, one or more decimal digits; leading zeros are allowed and ignored. -/
def digitsToken (t : Text) : Option Nat :=
  if t ≠ [] ∧ t.all isDigit then some (t.foldl (fun n c => n * 10 + (c.toNat - '0'.toNat)) 0) else none

/-- R105: the immediate token pattern, an optional `-` and digits. -/
def immediateToken : Text → Option Int
  | '-' :: t => (digitsToken t).map fun n => -(n : Int)
  | t => (digitsToken t).map fun n => (n : Int)

/-- What stands between `[` and `]`. -/
def bracketed : Text → Option Text
  | '[' :: t => if t.getLast? = some ']' then some t.dropLast else none
  | _ => none

/-- One instruction line of the text, before its names are resolved (R103). -/
structure SourceInstr where
  opc : Nat
  tokens : List Text
  line : Nat
  deriving DecidableEq, Repr

/-- What the first pass collects: the instruction lines, and the labels with the index each designates, both in the
order of the text. Label names are case-folded (R81, R102). -/
structure Scan where
  instrs : List SourceInstr
  labels : List (Text × Nat)
  deriving DecidableEq, Repr

/-- R102: a label is an identifier immediately followed by `:`, at the start of the line. -/
def splitLabel (t : Text) : Option Text × Text :=
  match t.takeWhile isIdentChar, t.dropWhile isIdentChar with
  | c :: cs, ':' :: rest => if isIdentStart c then (some (c :: cs), rest) else (none, t)
  | _, _ => (none, t)

/-- R103: operand tokens are split on commas; no operand text is an empty list. -/
def operandTokens (t : Text) : List Text := if t = [] then [] else (pieces ',' t).map trim

/-- R81, R102, R110: a label gets the index the next instruction will occupy. -/
def scanLabel (label : Option Text) (line : Nat) (sc : Scan) : Except LoadError Scan :=
  match label with
  | none => .ok sc
  | some l =>
    let name := foldCase l
    if (mnemonicOpc name).isSome ∨ (registerToken name).isSome then .error (.refused .reservedLabel line)
    else if (sc.labels.lookup name).isSome then .error (.refused .duplicateLabel line)
    else .ok { sc with labels := sc.labels ++ [(name, sc.instrs.length)] }

/-- R100 to R106: one line. A first word that is no mnemonic makes it untokenizable; that is tested before the line's label
(DESIGN CHOICE, log entry 15). -/
def scanLine (raw : Text) (line : Nat) (sc : Scan) : Except LoadError Scan := do
  let (label, rest) := splitLabel (trim (raw.takeWhile (· != ';')))
  let body := trim rest
  match body with
  | [] => scanLabel label line sc
  | _ :: _ =>
    match mnemonicOpc (body.takeWhile (!isBlank ·)) with
    | none => .error (.syntaxFault line)
    | some opc => do
      let sc ← scanLabel label line sc
      return { sc with instrs := sc.instrs ++
        [{ opc := opc, tokens := operandTokens (trim (body.dropWhile (!isBlank ·))), line := line }] }

/-- R100, R106: line by line, numbered from 1; assembly stops at the first fault. -/
def scanLines : List Text → Nat → Scan → Except LoadError Scan
  | [], _, sc => .ok sc
  | l :: ls, n, sc => do
    let sc ← scanLine l n sc
    scanLines ls (n + 1) sc

/-- R93, R95: ids are given in order of first definition; `0xFFFF` is a name the table does not contain. -/
def labelId (labels : List (Text × Nat)) (t : Text) : Nat :=
  (labels.findIdx? (fun e => e.1 == foldCase t)).getD 65535

/-- R107: a token as an operand form. -/
def dataOperand (labels : List (Text × Nat)) (line : Nat) (t : Text) : Except LoadError Operand :=
  if t = [] then .ok .bad
  else match registerToken t, immediateToken t, bracketed t with
    | some r, _, _ => .ok (.reg r)
    | none, some n, _ => if InI16 n then .ok (.imm (tc16 n)) else .error (.refused .immediateRange line)
    | none, none, some inner =>
      match digitsToken inner, registerToken inner with
      | some a, _ => if a ≤ 65535 then .ok (.dir a) else .error (.refused .addressRange line)
      | none, some r => .ok (.ind r)
      | none, none => .ok (.name (labelId labels t))
    | none, none, none => .ok (.name (labelId labels t))

/-- R108: the opcodes whose first token is a label name whatever its shape. -/
def isTransfer (opc : Nat) : Bool := opc == 13 || opc == 14 || opc == 15 || opc == 16 || opc == 18

/-- R107, R108: the first token. -/
def firstOperand (labels : List (Text × Nat)) (si : SourceInstr) (t : Text) : Except LoadError Operand :=
  if isTransfer si.opc then .ok (.name (labelId labels t)) else dataOperand labels si.line t

/-- R84, R107, R108: the operand list; tokens past the second are dropped. -/
def resolveOperands (labels : List (Text × Nat)) (si : SourceInstr) : Except LoadError Operands :=
  match si.tokens with
  | [] => .ok .zero
  | [t] => do return .one (← firstOperand labels si t)
  | [t, u] => do return .two (← firstOperand labels si t) (← dataOperand labels si.line u)
  | t :: u :: _ :: _ => do return .more (← firstOperand labels si t) (← dataOperand labels si.line u)

/-- R80, R82: the ROM word of an instruction line. -/
def assembleInstr (labels : List (Text × Nat)) (si : SourceInstr) : Except LoadError RomWord := do
  let ops ← resolveOperands labels si
  match instrOfOpc si.opc ops si.line with
  | some i => return encode i
  | none => .error (.syntaxFault si.line)

/-- The ROM words of the instruction lines, in their order. -/
def assembleInstrs (labels : List (Text × Nat)) : List SourceInstr → Except LoadError (List RomWord)
  | [] => .ok []
  | si :: sis => do
    let w ← assembleInstr labels si
    let ws ← assembleInstrs labels sis
    return w :: ws

/-- R93, R94: the table entry of a label: valid, and its index. -/
def labelEntry (index : Nat) : Word := BitVec.ofNat 16 (2 ^ 15 + index)

/-- The lines of a text; a final newline ends the last line and begins none. -/
def textLines (t : Text) : List Text :=
  let ls := pieces '\n' t
  if ls.getLast? = some [] then ls.dropLast else ls

/-- R106: `assemble(sourceText) -> { instructions, labels } | SyntaxFault`, all or nothing. Which error a text with several
defects gives is DESIGN CHOICE (log entry 15): the line count first; then, line by line, SyntaxFaults and label refusals;
then the counts of instructions and labels; then, once every line has its form, literals out of range in the order of the
text. R106 fixes only that the SyntaxFault is the first one of the text. -/
def assemble (t : Text) : Except LoadError (List RomWord × List Word) := do
  let ls := textLines t
  if ls.length > 65535 then .error (.refused .tooManyLines 65536)
  else
    let sc ← scanLines ls 1 ⟨[], []⟩
    if sc.instrs.length > romLenMax then .error (.refused .tooManyInstructions 0)
    else if sc.labels.length > nLabelsMax then .error (.refused .tooManyLabels 0)
    else
      let rom ← assembleInstrs sc.labels sc.instrs
      return (rom, sc.labels.map fun e => labelEntry e.2)

/-- R41, R241: a new executor for a source text, with the reset values it is built with. -/
def load (t : Text) (resetR : RegFile) (resetZf resetSf : Bool) : Except LoadError State := do
  let (rom, lt) ← assemble t
  return State.construct { rom := rom, lt := lt, resetR := resetR, resetZf := resetZf, resetSf := resetSf }

end Sys2Proof.Machine
end

