-- ==== Sys2Proof/Machine/Commands.lean ====
section
/-! DEFINITION. The host's side of the block (spec/10_state.md R36, R40 to R43, spec/60_exceptions.md R211, R213, R225,
R226, spec/70_reset_and_hazards.md R240 to R242): the two commands, the response to each with its ports, the snapshot,
the string form of the output log, and the byte order outside the block (spec/20_memory.md R55). -/

namespace Sys2Proof.Machine

/-- R211: the number of a fault on the 4-bit port `fault_code`; 0 is no fault. -/
def FaultTag.code : FaultTag → BitVec 4
  | .unknownInstruction => 1
  | .operandCountMismatch => 2
  | .invalidOperand => 3
  | .invalidMemoryAccess => 4
  | .divisionByZero => 5
  | .arithmeticOverflow => 6
  | .stackOverflow => 7
  | .stackUnderflow => 8
  | .undefinedLabel => 9
  | .executionOutOfBounds => 10

/-- R41: the two commands. -/
inductive Command where
  | step
  | reset
  deriving DecidableEq, Repr

/-- R42, R43: what one command returns: at most one fault, and the value an `OUT` emitted, if any. It holds no state
between commands. -/
structure Response where
  fault : Option Fault
  outValue : Option Word
  deriving DecidableEq, Repr

/-- The response of a `RESET`, which returns nothing, and of a successful `STEP` that emits nothing. -/
def Response.empty : Response := ⟨none, none⟩

/-- R43: the value a step appended to the output log. -/
def emitted (before after : State) : Option Word := after.out[before.out.length]?

/-- R240, R242: `RESET` restores what construction left, for the same parameters, in whatever state it is issued. -/
def State.afterReset (s : State) : State := State.construct s.params

/-- R41, R129, R225: one command as a total function to the state after it and its response. A faulting `STEP` leaves the
state as it was. -/
def command (c : Command) (s : State) : State × Response :=
  match c with
  | .reset => (s.afterReset, .empty)
  | .step =>
    match step s with
    | .next t => (t, ⟨none, emitted s t⟩)
    | .fault f => (s, ⟨some f, none⟩)
    | .refused _ => (s, .empty)

/-- R12, R235: a run is the host's sequence of commands, each completing before the next. -/
def runCommands : List Command → State → State × List Response
  | [], s => (s, [])
  | c :: cs, s =>
    let (t, r) := command c s
    let (u, rs) := runCommands cs t
    (u, r :: rs)

/-- R41: the input ports, `cmd` and its strobe `cmd_valid`. -/
structure CommandPorts where
  cmdValid : Bool
  cmd : Command
  deriving DecidableEq, Repr

/-- R42, R43: the output ports. -/
structure ResponsePorts where
  faultValid : Bool
  faultCode : BitVec 4
  faultLineValid : Bool
  faultLine : BitVec 16
  outValid : Bool
  outValue : BitVec 16
  deriving DecidableEq, Repr

/-- R42, R43, R211, R213: a response on the ports. A port that is not valid carries 0. -/
def Response.ports (r : Response) : ResponsePorts :=
  let line : Option Nat := match r.fault with
    | some (.runtime _ l) => l
    | none => none
  { faultValid := r.fault.isSome
    faultCode := match r.fault with
      | some (.runtime tag _) => tag.code
      | none => 0
    faultLineValid := line.isSome
    faultLine := BitVec.ofNat 16 (line.getD 0)
    outValid := r.outValue.isSome
    outValue := r.outValue.getD 0 }

/-- R41: what the ports do when the host drives them; without the strobe there is no command and nothing happens. -/
def drive (p : CommandPorts) (s : State) : State × ResponsePorts :=
  if p.cmdValid then
    let (t, r) := command p.cmd s
    (t, r.ports)
  else (s, Response.empty.ports)

/-- R40: the data the host may read between commands. -/
structure Snapshot where
  registers : RegFile
  pc : Int
  sp : Nat
  zf : Bool
  sf : Bool
  memory : List Word
  outputLog : List Word
  halted : Bool
  deriving DecidableEq, Repr

/-- R40: the snapshot, all 256 cells of the memory in it. Observation changes nothing. -/
def State.snapshot (s : State) : Snapshot :=
  { registers := s.regs
    pc := s.pc.toInt
    sp := s.sp.val
    zf := s.zf
    sf := s.sf
    memory := (List.range memCells).map s.memRead
    outputLog := s.out
    halted := s.halted }

/-- R55 (D19): the bytes of an `n`-byte field serialised outside the block, most significant byte first. Nothing inside the
block observes them. -/
def bytesOf (n w : Nat) : List (BitVec 8) :=
  (List.range n).map fun k => BitVec.ofNat 8 (w / 2 ^ (8 * (n - 1 - k)))

/-- R55: a ROM word as eight bytes. -/
def romWordBytes (w : RomWord) : List (BitVec 8) := bytesOf 8 w.toNat

/-- R55: a data cell as two bytes. -/
def cellBytes (v : Word) : List (BitVec 8) := bytesOf 2 v.toNat

/-- The decimal digits of a number below `10 ^ fuel`, without leading zeros. -/
def decimalDigits : Nat → Nat → List Char
  | 0, _ => []
  | fuel + 1, n =>
    (if n < 10 then [] else decimalDigits fuel (n / 10)) ++ [Char.ofNat (48 + n % 10)]

/-- R36: the string form of a log entry: canonical decimal, a leading `-` for a negative value, `0` for zero. -/
def renderEntry (v : Word) : List Char :=
  if v.toInt < 0 then '-' :: decimalDigits 5 v.toInt.natAbs else decimalDigits 5 v.toInt.natAbs

/-- R36: the output log as the document shows it, a sequence of strings. -/
def State.renderedLog (s : State) : List String := s.out.map fun v => String.ofList (renderEntry v)

end Sys2Proof.Machine
end

