-- ==== Sys2Proof/Safety.lean ====
section
/-! DEFINITION. The invariant of the machine's states, the shape of a state change, and what a safe run is, in the terms
the statements use. -/

namespace Sys2Proof.Machine

/-- The machine's invariant. The ranges of R45 (registers, cells, `PC`, `SP`, log entries) are the ranges of their types;
what remains is that the memory keeps its canonical form, its addresses below 256 (R51), and that the program and the
label table keep the lengths of R9. -/
abbrev State.Inv (s : State) : Prop := s.mem.wf ∧ s.params.wf

/-- What no instruction but the named exceptions changes: the stack pointer, `halted`, the output log, the parameters. -/
def SameControl (s t : State) : Prop :=
  t.sp = s.sp ∧ t.halted = s.halted ∧ t.out = s.out ∧ t.params = s.params

/-- Both flags as before (R29, R30). -/
def SameFlags (s t : State) : Prop := t.zf = s.zf ∧ t.sf = s.sf

/-- Every general register as before. -/
def SameRegs (s t : State) : Prop := ∀ r, t.reg r = s.reg r

/-- Every memory cell as before. -/
def SameMemory (s t : State) : Prop := ∀ a, t.memRead a = s.memRead a

/-- Every register and cell as before, except the one the operand writes, found by the function the write itself uses
(R65, `writeTarget`), in the state the write uses. -/
def SameOutside (dest : Operand) (s t : State) : Prop :=
  (∀ r, writeTarget dest s ≠ .ok (.reg r) → t.reg r = s.reg r) ∧
  (∀ a, writeTarget dest s ≠ .ok (.cell a) → t.memRead a = s.memRead a)

/-- R124: the operand count each opcode expects (R90). -/
def expectedCount : Instr → Nat
  | .mov _ _ | .add _ _ | .sub _ _ | .mol _ _ | .div _ _ | .and _ _ | .or _ _ | .cmp _ _ => 2
  | .push _ _ | .pop _ _ | .inc _ _ | .dec _ _ | .not _ _ | .jmp _ _ | .jz _ _ | .jnz _ _ | .js _ _ | .call _ _
  | .out _ _ => 1
  | .ret _ _ | .hlt _ _ => 0

/-- R29: the ten flag-affecting instructions. -/
def affectsFlags : Instr → Bool
  | .add _ _ | .sub _ _ | .mol _ _ | .div _ _ | .inc _ _ | .dec _ _ | .and _ _ | .or _ _ | .not _ _ | .cmp _ _ => true
  | .mov _ _ | .push _ _ | .pop _ _ | .jmp _ _ | .jz _ _ | .jnz _ _ | .js _ _ | .call _ _ | .ret _ _ | .out _ _
  | .hlt _ _ => false

/-- R126, R213: the response is this fault, with the line of the instruction unless that is 0. -/
def FaultsWith (o : StepOutcome) (tag : FaultTag) (line : Nat) : Prop :=
  o = .fault (.runtime tag (if line = 0 then none else some line))

/-- R90: the opcode number and the expected operand count of an instruction, whatever its operands. -/
def HasOpcode (mk : Operands → Nat → Instr) (opc count : Nat) : Prop :=
  ∀ ops line, instrOfOpc opc ops line = some (mk ops line) ∧ opcOfInstr (mk ops line) = opc ∧
    expectedCount (mk ops line) = count

/-- R124: every operand list of another length faults, before anything else. -/
def CountChecked (mk : Operands → Nat → Instr) (count : Nat) (s : State) : Prop :=
  ∀ ops line, ops.count ≠ count → FaultsWith (exec (mk ops line) s) .operandCountMismatch line

/-- An outcome with its next state changed, to compare two runs that differ in one part of the state. -/
def mapNext (f : State → State) : StepOutcome → StepOutcome
  | .next s => .next (f s)
  | .fault r => .fault r
  | .refused r => .refused r

/-- Instructions run one after another, stopping at the first fault. -/
def execAll : List Instr → State → StepOutcome
  | [], s => .next s
  | i :: is, s =>
    match exec i s with
    | .next t => execAll is t
    | .fault r => .fault r
    | .refused r => .refused r

/-- A safe run of `n` steps meets no fault. -/
def SafeRun (n : Nat) (s : State) : Prop := ∃ t, Host.Core.run Sys2Proof.core n s = .next t

end Sys2Proof.Machine
end

