-- ==== Sys2Proof/Certificates/Slice0/Obligations.lean ====
section
/-! DEFINITION. The statements for the provers. Each says in its docstring which rule of spec/ it formalises. The shared
shapes of the statements stand first, under Sys2Proof.Claims. -/

namespace Sys2Proof.Claims

open Sys2Proof.Machine

/-- The instruction completed with the result `r` in its destination, both flags from `r`, `pc + 1`, and nothing else
changed. -/
def CompletesWith (o : StepOutcome) (s : State) (dest : Operand) (stored flagged : Int) : Prop :=
  ∃ t, o = .next t ∧ readOperand dest t = .ok (tc16 stored) ∧ t.zf = decide (flagged = 0) ∧
    t.sf = decide (flagged < 0) ∧ t.pc = s.pc + 1 ∧ SameOutside dest s t ∧ SameControl s t

/-- The write of a destination: it raises what its place raises, or the instruction completes. -/
def WritesOrFaults (o : StepOutcome) (s : State) (line : Nat) (dest : Operand) (stored flagged : Int) : Prop :=
  (∀ e, writeTarget dest s = .error e → FaultsWith o e line) ∧
  (∀ loc, writeTarget dest s = .ok loc → CompletesWith o s dest stored flagged)

/-- The reads of a two-operand instruction, first slot A, then slot B (R74); `k` is what must hold of the values. -/
def ReadsBoth (o : StepOutcome) (s : State) (line : Nat) (a b : Operand) (k : Word → Word → Prop) : Prop :=
  (∀ e, readOperand a s = .error e → FaultsWith o e line) ∧
  (∀ d, readOperand a s = .ok d →
    (∀ e, readOperand b s = .error e → FaultsWith o e line) ∧ (∀ v, readOperand b s = .ok v → k d v))

/-- The read of a one-operand instruction. -/
def ReadsOne (o : StepOutcome) (s : State) (line : Nat) (a : Operand) (k : Word → Prop) : Prop :=
  (∀ e, readOperand a s = .error e → FaultsWith o e line) ∧ (∀ d, readOperand a s = .ok d → k d)

/-- R150, R152, R154: read both, fault on an exact result outside `I16`, then write it. -/
def OverflowingRule (mk : Operands → Nat → Instr) (opc : Nat) (f : Int → Int → Int) : Prop :=
  HasOpcode mk opc 2 ∧ ∀ s, CountChecked mk 2 s ∧ ∀ dest src line,
    ReadsBoth (exec (mk (.two dest src) line) s) s line dest src fun d v =>
      (¬InI16 (f d.toInt v.toInt) → FaultsWith (exec (mk (.two dest src) line) s) .arithmeticOverflow line) ∧
      (InI16 (f d.toInt v.toInt) →
        WritesOrFaults (exec (mk (.two dest src) line) s) s line dest (f d.toInt v.toInt) (f d.toInt v.toInt))

/-- R158, R160: read, fault when the operand stands at the bound, else write the operand moved by `delta`. -/
def BoundedRule (mk : Operands → Nat → Instr) (opc : Nat) (delta bound : Int) : Prop :=
  HasOpcode mk opc 1 ∧ ∀ s, CountChecked mk 1 s ∧ ∀ dest line,
    ReadsOne (exec (mk (.one dest) line) s) s line dest fun d =>
      (d.toInt = bound → FaultsWith (exec (mk (.one dest) line) s) .arithmeticOverflow line) ∧
      (d.toInt ≠ bound →
        WritesOrFaults (exec (mk (.one dest) line) s) s line dest (d.toInt + delta) (d.toInt + delta))

/-- R170, R172: read both, write the bitwise result, which is in `I16`; never `ArithmeticOverflow`. -/
def BitwiseRule (mk : Operands → Nat → Instr) (opc : Nat) (f : Word → Word → Word) : Prop :=
  HasOpcode mk opc 2 ∧ ∀ s, CountChecked mk 2 s ∧ ∀ dest src line,
    ReadsBoth (exec (mk (.two dest src) line) s) s line dest src fun d v =>
      WritesOrFaults (exec (mk (.two dest src) line) s) s line dest (f d v).toInt (f d v).toInt

/-- R180, R182: the jump to a label: `UndefinedLabel`, or `pc` at the target and nothing else changed. -/
def JumpsTo (o : StepOutcome) (s : State) (line : Nat) (a : Operand) : Prop :=
  (∀ e, lookup a s = .error e → e = .undefinedLabel ∧ FaultsWith o .undefinedLabel line) ∧
  (∀ x, lookup a s = .ok x → o = .next { s with pc := x })

/-- R182, R184, R186: jump when the condition holds, else `pc + 1` with the label not looked up. -/
def ConditionalRule (mk : Operands → Nat → Instr) (opc : Nat) (cond : State → Bool) : Prop :=
  HasOpcode mk opc 1 ∧ ∀ s, CountChecked mk 1 s ∧ ∀ a line,
    (cond s = true → JumpsTo (exec (mk (.one a) line) s) s line a) ∧
    (cond s = false → exec (mk (.one a) line) s = .next { s with pc := s.pc + 1 })

/-- A pushed cell: `SP` one lower, the value at the new `SP`, every other cell, the registers, the flags, `halted`, the
log and the parameters as before. -/
def Pushed (s t : State) (v : Word) : Prop :=
  t.sp.val + 1 = s.sp.val ∧ t.memRead t.sp.val = v ∧ (∀ a, a ≠ t.sp.val → t.memRead a = s.memRead a) ∧
    SameRegs s t ∧ SameFlags s t ∧ t.halted = s.halted ∧ t.out = s.out ∧ t.params = s.params

/-- R92: two slots that differ only in bits the decoder ignores. -/
def SlotAgrees (m : BitVec 3) (v : Word) (m' : BitVec 3) (v' : Word) : Prop :=
  m = m' ∧
    match m.toNat with
    | 1 | 4 => v.extractLsb' 0 2 = v'.extractLsb' 0 2
    | 2 | 3 | 5 => v = v'
    | _ => True

/-- R92: two words that differ only in `RSV`, the ignored value bits, and the slots `NOPS` does not reach. -/
def DifferOnlyInReserved (w w' : RomWord) : Prop :=
  opcOf w = opcOf w' ∧ nopsOf w = nopsOf w' ∧ lineOf w = lineOf w' ∧
  (1 ≤ nopsOf w → SlotAgrees (romField w 54 3) (romField w 38 16) (romField w' 54 3) (romField w' 38 16)) ∧
  (2 ≤ nopsOf w → SlotAgrees (romField w 35 3) (romField w 19 16) (romField w' 35 3) (romField w' 19 16))

/-- `JZ`, `JNZ`, `JS`: the readers of flags (R29). -/
def readsFlags : Instr → Bool
  | .jz _ _ | .jnz _ _ | .js _ _ => true
  | .mov _ _ | .push _ _ | .pop _ _ | .add _ _ | .sub _ _ | .mol _ _ | .div _ _ | .inc _ _ | .dec _ _ | .and _ _
  | .or _ _ | .not _ _ | .jmp _ _ | .cmp _ _ | .call _ _ | .ret _ _ | .out _ _ | .hlt _ _ => false

/-- `PUSH`, `POP`, `CALL`, `RET`: the instructions that use the stack (R26). -/
def usesStack : Instr → Bool
  | .push _ _ | .pop _ _ | .call _ _ | .ret _ _ => true
  | .mov _ _ | .add _ _ | .sub _ _ | .mol _ _ | .div _ _ | .inc _ _ | .dec _ _ | .and _ _ | .or _ _ | .not _ _
  | .jmp _ _ | .jz _ _ | .jnz _ _ | .js _ _ | .cmp _ _ | .out _ _ | .hlt _ _ => false

/-- How many of the instructions are a `PUSH`. -/
def pushes (is : List Instr) : Nat := is.countP fun i => match i with | .push _ _ => true | _ => false

/-- How many of the instructions are a `POP`. -/
def pops (is : List Instr) : Nat := is.countP fun i => match i with | .pop _ _ => true | _ => false

/-- R24: where `PC` goes when an instruction completes (R182, R184, R186 for the conditions; the polarity of `JNZ` is the spec's
own decision D18). -/
def PcAfter (i : Instr) (s t : State) : Prop :=
  match i with
  | .hlt _ _ => t.pc = s.pc
  | .ret _ _ => t.pc = s.memRead s.sp.val
  | .jmp ops _ | .call ops _ => ∃ a, ops = .one a ∧ lookup a s = .ok t.pc
  | .jz ops _ => if s.zf then ∃ a, ops = .one a ∧ lookup a s = .ok t.pc else t.pc = s.pc + 1
  | .jnz ops _ => if s.zf then t.pc = s.pc + 1 else ∃ a, ops = .one a ∧ lookup a s = .ok t.pc
  | .js ops _ => if s.sf then ∃ a, ops = .one a ∧ lookup a s = .ok t.pc else t.pc = s.pc + 1
  | .mov _ _ | .push _ _ | .pop _ _ | .add _ _ | .sub _ _ | .mol _ _ | .div _ _ | .inc _ _ | .dec _ _ | .and _ _
  | .or _ _ | .not _ _ | .cmp _ _ | .out _ _ => t.pc = s.pc + 1

end Sys2Proof.Claims

open Sys2Proof Sys2Proof.Machine Sys2Proof.Claims

/-! ### Encoding -/

/-- R83, R84, R86 to R88, R90: every instruction that a word can carry is read back from its word, with every operand at
every value the encoding admits, a wrong operand count included. The encoding is the spec's own decisions D1 to D4. -/
def Obligations.DecodeOfEncodeIsTheInstruction : Prop :=
  ∀ i : Instr, i.wellFormed = true → decode (encode i) = .ok i

/-- R83, R84, R90: what the decoder answers has the opcode, the operand count and the source line of the word, and every
field within its width (the spec's own encoding, D1, D2, D12). -/
def Obligations.DecodedInstructionCarriesTheFields : Prop :=
  ∀ (w : RomWord) (i : Instr), decode w = .ok i →
    i.wellFormed = true ∧ opcOfInstr i = opcOf w ∧ i.operands.count = nopsOf w ∧ i.line = lineOf w

/-- R92: reserved bits, ignored value bits and unused slots never matter; the reserved modes give `BAD`; no reserved field
makes a word illegal (the spec's own decision D3). -/
def Obligations.ReservedFieldsAreIgnored : Prop :=
  (∀ w w' : RomWord, DifferOnlyInReserved w w' → decode w = decode w') ∧
  (∀ v : Word, operandOfSlot 6 v = .bad ∧ operandOfSlot 7 v = .bad) ∧
  (∀ w : RomWord, 1 ≤ opcOf w → opcOf w ≤ 21 → ∃ i, decode w = .ok i)

/-- R83: a few words written out from the layout, and the instructions they stand for, a sanity statement over the spec's own
encoding (D1 to D4). -/
def Obligations.WrittenOutWordsDecode : Prop :=
  decode 0b00001_10_001_0000000000000000_010_0000000000000101_000_0000000000000001 =
    .ok (.mov (.two (.reg .r0) (.imm 5)) 1) ∧
  decode 0b00100_10_100_0000000000000000_001_0000000000000000_000_0000000000000001 =
    .ok (.add (.two (.ind .r0) (.reg .r0)) 1) ∧
  decode 0b01011_10_001_0000000000000000_100_0000000000000001_000_0000000000000001 =
    .ok (.or (.two (.reg .r0) (.ind .r1)) 1) ∧
  decode 0b01110_01_101_0000000000000001_000_0000000000000000_000_0000000000000101 =
    .ok (.jz (.one (.name 1)) 5) ∧
  decode 0b10100_01_011_0000000100101100_000_0000000000000000_000_0000000000000001 =
    .ok (.out (.one (.dir 300)) 1)

/-! ### The step -/

/-- R129: where the word at the program counter decodes to an instruction, a step is that instruction's handler at that
state. The step adds nothing around it: the handler commits the program counter (R125). -/
def Obligations.StepRunsTheDecodedInstruction : Prop :=
  ∀ (s : State) (w : RomWord) (i : Instr), s.halted = false → 0 ≤ s.pc.toInt →
    s.pc.toInt < s.params.rom.length → s.params.rom[s.pc.toInt.toNat]? = some w → decode w = .ok i →
    step s = exec i s

/-- R121: a halted executor answers every `STEP` with no fault and nothing changed, for ever. -/
def Obligations.HaltedExecutorDoesNothing : Prop :=
  ∀ s : State, s.halted = true →
    step s = .next s ∧ ∀ n, runCommands (List.replicate n .step) s = (s, List.replicate n .empty)

/-- R122: outside the ROM, negative indexes included, the step raises `ExecutionOutOfBounds` with no line and changes
nothing; with an empty ROM the first step after reset does so. The negative half is the spec's own decision D7. -/
def Obligations.FetchOutsideTheRomFaults : Prop :=
  (∀ s : State, s.halted = false → (s.pc.toInt < 0 ∨ s.pc.toInt ≥ s.params.rom.length) →
    step s = .fault (.runtime .executionOutOfBounds none) ∧
    command .step s = (s, ⟨some (.runtime .executionOutOfBounds none), none⟩)) ∧
  (∀ p : Params, p.rom = [] → step (State.construct p) = .fault (.runtime .executionOutOfBounds none))

/-- R214: a fetched word whose `OPC` is not 1..21 raises `UnknownInstruction` with its line, whatever its `NOPS`. -/
def Obligations.UnknownOpcodeFaults : Prop :=
  ∀ (s : State) (w : RomWord), s.halted = false → fetch s = some w → ¬(1 ≤ opcOf w ∧ opcOf w ≤ 21) →
    FaultsWith (step s) .unknownInstruction (lineOf w)

/-- R124: every one of the 21 instructions first checks its operand count. -/
def Obligations.EveryHandlerChecksTheOperandCount : Prop :=
  ∀ (i : Instr) (s : State), i.operands.count ≠ expectedCount i → FaultsWith (exec i s) .operandCountMismatch i.line

/-- R129: the step is total: it completes or returns one of the ten faults, and no instruction is refused. -/
def Obligations.StepCompletesOrFaults : Prop :=
  (∀ s : State, (∃ t, step s = .next t) ∨ ∃ tag line, step s = .fault (.runtime tag line)) ∧
  (∀ (i : Instr) (s : State), (∃ t, exec i s = .next t) ∨ ∃ tag line, exec i s = .fault (.runtime tag line))

/-- R213: a fault raised after a fetch carries the word's line unless that is 0; `ExecutionOutOfBounds` carries none (the
spec's own decision D12). -/
def Obligations.FaultCarriesTheSourceLine : Prop :=
  ∀ (s : State) (tag : FaultTag) (line : Option Nat), step s = .fault (.runtime tag line) →
    (tag = .executionOutOfBounds → line = none) ∧
    (tag ≠ .executionOutOfBounds →
      ∃ w, fetch s = some w ∧ line = if lineOf w = 0 then none else some (lineOf w))

/-- R128, R126: after a fault the state is the state before the step, and every further `STEP` returns the same fault with
the same line. That a fault changes nothing at all is the spec's own decision D8, and the spec derives R128 from it. -/
def Obligations.FaultIsPureAndRepeats : Prop :=
  ∀ (s : State) (f : Fault), step s = .fault f →
    ∀ n, runCommands (List.replicate n .step) s = (s, List.replicate n ⟨some f, none⟩)

/-- R211: the ten fault codes are 1 to 10 in the order of the rule's list, and 0 is no fault; codes 11 to 15 are never
produced (the spec's own decision D11). -/
def Obligations.FaultCodesAreTheRuleList : Prop :=
  [FaultTag.unknownInstruction, .operandCountMismatch, .invalidOperand, .invalidMemoryAccess, .divisionByZero,
    .arithmeticOverflow, .stackOverflow, .stackUnderflow, .undefinedLabel, .executionOutOfBounds].map FaultTag.code =
    [1, 2, 3, 4, 5, 6, 7, 8, 9, 10] ∧
  (∀ (c : Command) (s : State),
    (command c s).2.ports.faultCode.toNat ≤ 10 ∧
    ((command c s).2.ports.faultCode = 0 ↔ (command c s).2.fault = none) ∧
    ((command c s).2.ports.faultValid = true ↔ (command c s).2.fault ≠ none))

/-! ### Reset and invariants -/

/-- R240: what `RESET` leaves, in whatever state it is issued. -/
def Obligations.ResetRestoresEveryElement : Prop :=
  ∀ s : State,
    (command .reset s).1.pc = 0 ∧ (command .reset s).1.sp.val = 256 ∧ (command .reset s).1.halted = false ∧
    (∀ a, (command .reset s).1.memRead a = 0) ∧ (command .reset s).1.out = [] ∧
    (command .reset s).1.regs = s.params.resetR ∧ (command .reset s).1.zf = s.params.resetZf ∧
    (command .reset s).1.sf = s.params.resetSf ∧ (command .reset s).1.params = s.params ∧
    (command .reset s).2 = .empty

/-- R242, R241: nothing of the run before a `RESET` survives it: after any commands it leaves what construction left. -/
def Obligations.NothingSurvivesReset : Prop :=
  ∀ (cs : List Command) (s : State), (runCommands (cs ++ [.reset]) s).1 = State.construct s.params

/-- R9, R73: no command changes the ROM, the label table or the reset values. -/
def Obligations.ParametersAreImmutable : Prop :=
  ∀ (cs : List Command) (s : State), (runCommands cs s).1.params = s.params

/-- R45, R51: the memory's canonical form, its addresses below 256, and the bounds on the program are kept by a step. -/
def Obligations.StepKeepsTheInvariant : Prop :=
  ∀ s t : State, s.Inv → step s = .next t → t.Inv

/-- R44: the machine right after reset meets the invariant, and so does every executor built from parameters within R9. -/
def Obligations.ResetMeetsTheInvariant : Prop :=
  State.reset.Inv ∧ ∀ p : Params, p.wf → (State.construct p).Inv

/-- R45: every state a host can bring about, by any sequence of commands on any executor, meets the invariant. -/
def Obligations.EveryReachableStateMeetsTheInvariant : Prop :=
  ∀ (p : Params) (cs : List Command), p.wf → (runCommands cs (State.construct p)).1.Inv

/-- R25: where an instruction is fetched, `PC + 1` is the next index and does not wrap; a label's target is an index
0..32767, the low 15 bits of its entry. -/
def Obligations.PcNeverWraps : Prop :=
  (∀ (s : State) (w : RomWord), s.Inv → fetch s = some w →
    (s.pc + 1).toInt = s.pc.toInt + 1 ∧ (s.pc + 1).toInt ≤ 32767) ∧
  (∀ e : Word, (labelTarget e).toInt = (e.toNat % 32768 : Nat))

/-- R24: how each step changes `PC`. That `JNZ` is taken when `ZF` is clear is the spec's own decision D18 (R184). -/
def Obligations.PcAfterEachStep : Prop :=
  (∀ (i : Instr) (s t : State), exec i s = .next t → PcAfter i s t) ∧
  (∀ (s : State) (f : Fault), step s = .fault f → (command .step s).1.pc = s.pc) ∧
  (∀ s : State, s.halted = true → (command .step s).1.pc = s.pc)

/-- The model's memory (log entry 4, a choice of the model): two memories in canonical form whose 256 cells read the same
are the same data. -/
def Obligations.MemoryIsDeterminedByItsCells : Prop :=
  ∀ m m' : Memory, m.wf → m'.wf → (∀ a, a < 256 → m.read a = m'.read a) → m = m'

/-- R20, R40: the snapshot shows the whole state: executors with the same parameters and the same snapshot are the same. -/
def Obligations.SnapshotDeterminesTheState : Prop :=
  ∀ s t : State, s.Inv → t.Inv → s.params = t.params → s.snapshot = t.snapshot → s = t

/-! ### Whole-machine rules -/

/-- R29: the ten flag-affecting instructions alone write the flags, and `JZ`, `JNZ` (`ZF`) and `JS` (`SF`) alone read
them: for the others, runs from states that differ in the flags differ in nothing but flags that were not written. -/
def Obligations.FlagsAreTouchedOnlyWhereTheRuleSays : Prop :=
  (∀ (i : Instr) (s t : State), affectsFlags i = false → exec i s = .next t → SameFlags s t) ∧
  (∀ (i : Instr) (s : State) (z f : Bool), readsFlags i = false →
    exec i { s with zf := z, sf := f } =
      mapNext (fun t => if affectsFlags i then t else { t with zf := z, sf := f }) (exec i s)) ∧
  (∀ (ops : Operands) (line : Nat) (s : State) (f : Bool),
    exec (.jz ops line) { s with sf := f } = mapNext (fun t => { t with sf := f }) (exec (.jz ops line) s) ∧
    exec (.jnz ops line) { s with sf := f } = mapNext (fun t => { t with sf := f }) (exec (.jnz ops line) s)) ∧
  (∀ (ops : Operands) (line : Nat) (s : State) (z : Bool),
    exec (.js ops line) { s with zf := z } = mapNext (fun t => { t with zf := z }) (exec (.js ops line) s))

/-- R31: both flags come from one result, so a flag-affecting instruction never leaves both set. -/
def Obligations.FlagsNeverBothSet : Prop :=
  ∀ (i : Instr) (s t : State), affectsFlags i = true → exec i s = .next t → ¬(t.zf = true ∧ t.sf = true)

/-- R26: only `PUSH`, `POP`, `CALL` and `RET` read or write `SP`: any other instruction does the same whatever `SP` is, and
leaves it. -/
def Obligations.StackPointerIsUsedOnlyByTheStack : Prop :=
  ∀ (i : Instr) (s : State) (k : Fin 257), usesStack i = false →
    exec i { s with sp := k } = mapNext (fun t => { t with sp := k }) (exec i s)

/-- R34: `halted` is false after construction and after reset, a successful `HLT` sets it and nothing else does, only
`RESET` clears it, while it is true a `STEP` does nothing and returns no fault, and the snapshot shows it. -/
def Obligations.OnlyHltHalts : Prop :=
  (∀ (s : State) (line : Nat), exec (.hlt .zero line) s = .next { s with halted := true }) ∧
  (∀ p : Params, (State.construct p).halted = false) ∧
  (∀ s : State, (command .reset s).1.halted = false ∧ s.snapshot.halted = s.halted ∧
    (s.halted = true → command .step s = (s, .empty))) ∧
  (∀ s t : State, step s = .next t → t.halted = true →
    s.halted = true ∨ ∃ w line, fetch s = some w ∧ decode w = .ok (.hlt .zero line))

/-- R36: the log is append-only, a step appends at most one entry, and no instruction reads the log: what stood in it
before changes nothing else (integer entries without a limit are the spec's own decision D16). -/
def Obligations.OutputLogIsAppendOnly : Prop :=
  (∀ s t : State, step s = .next t → ∃ l, t.out = s.out ++ l ∧ l.length ≤ 1) ∧
  (∀ (i : Instr) (s : State) (l : List Word),
    exec i { s with out := l ++ s.out } = mapNext (fun t => { t with out := l ++ t.out }) (exec i s))

/-- R43: the output port pulses with the response of a successful `OUT` step, with the value appended, and with no other
response (the ports are the spec's own decision D15). -/
def Obligations.OutPortShowsTheAppendedValue : Prop :=
  ∀ s : State,
    (∀ v, (command .step s).2.outValue = some v ↔
      ∃ t w a line, s.halted = false ∧ fetch s = some w ∧ decode w = .ok (.out (.one a) line) ∧ step s = .next t ∧
        t.out = s.out ++ [v]) ∧
    (command .reset s).2.outValue = none

/-! ### The resolver and the arithmetic -/

/-- R60: `clamp` saturates, is the identity on `I16`, keeps zero, negatives and positives, and is applied on every write
that goes through the resolver. -/
def Obligations.ClampSaturates : Prop :=
  ∀ v : Int, (v < -32768 → clamp v = -32768) ∧ (v > 32767 → clamp v = 32767) ∧ (InI16 v → clamp v = v) ∧
    (clamp v = 0 ↔ v = 0) ∧ (clamp v < 0 ↔ v < 0) ∧ (0 < clamp v ↔ 0 < v) ∧
    (∀ (op : Operand) (s t : State), writeOperand op v s = .ok t →
      ∃ w : Word, w.toInt = clamp v ∧ readOperand op t = .ok w)

/-- R64: what `ReadOperand` answers for each of the six forms (its tags for `NAME` and `BAD` are the spec's own decision
D10). -/
def Obligations.ReadOperandOfEachForm : Prop :=
  ∀ s : State,
    (∀ r, readOperand (.reg r) s = .ok (s.reg r)) ∧
    (∀ n, readOperand (.imm n) s = .ok n) ∧
    (∀ a, a ≤ 255 → readOperand (.dir a) s = .ok (s.memRead a)) ∧
    (∀ a, a > 255 → readOperand (.dir a) s = .error .invalidMemoryAccess) ∧
    (∀ r (a : Nat), (s.reg r).toInt = a → a ≤ 255 → readOperand (.ind r) s = .ok (s.memRead a)) ∧
    (∀ r, (s.reg r).toInt < 0 ∨ (s.reg r).toInt > 255 → readOperand (.ind r) s = .error .invalidMemoryAccess) ∧
    (∀ k, readOperand (.name k) s = .error .invalidOperand) ∧
    readOperand .bad s = .error .invalidOperand

/-- R65: what `WriteOperand` does for each of the six forms: one clamped write, or a fault and nothing written (two of its
tags are the spec's own decision D10). -/
def Obligations.WriteOperandOfEachForm : Prop :=
  ∀ (s : State) (v : Int),
    (∀ r, writeOperand (.reg r) v s = .ok (s.setReg r (tc16 (clamp v)))) ∧
    (∀ n, writeOperand (.imm n) v s = .error .invalidOperand) ∧
    (∀ a, a ≤ 255 → writeOperand (.dir a) v s = .ok (s.memWrite a (tc16 (clamp v)))) ∧
    (∀ a, a > 255 → writeOperand (.dir a) v s = .error .invalidMemoryAccess) ∧
    (∀ r (a : Nat), (s.reg r).toInt = a → a ≤ 255 →
      writeOperand (.ind r) v s = .ok (s.memWrite a (tc16 (clamp v)))) ∧
    (∀ r, (s.reg r).toInt < 0 ∨ (s.reg r).toInt > 255 → writeOperand (.ind r) v s = .error .invalidMemoryAccess) ∧
    (∀ k, writeOperand (.name k) v s = .error .invalidOperand) ∧
    writeOperand .bad v s = .error .invalidOperand

/-- R96: what the label resolver answers: the low 15 bits of a valid entry, else `UndefinedLabel`. The table's layout, and an
operand that is no name, are the spec's own decision D4. -/
def Obligations.LookupAnswersTheValidEntry : Prop :=
  ∀ s : State,
    (∀ k e, s.params.lt[k]? = some e → e.getLsbD 15 = true →
      ∃ x, lookup (.name k) s = .ok x ∧ x.toNat = e.toNat % 2 ^ 15) ∧
    (∀ k e, s.params.lt[k]? = some e → e.getLsbD 15 = false → lookup (.name k) s = .error .undefinedLabel) ∧
    (∀ k, k ≥ s.params.lt.length → lookup (.name k) s = .error .undefinedLabel) ∧
    (∀ op, (∀ k, op ≠ .name k) → lookup op s = .error .undefinedLabel)

/-- R61: among the values the instructions write through the resolver, `clamp` changes the quotient of −32768 by −1 and no
other. -/
def Obligations.OnlyOneQuotientIsClamped : Prop :=
  (∀ d v : Word, v.toInt ≠ 0 → (clamp (fdiv d.toInt v.toInt) ≠ fdiv d.toInt v.toInt ↔ d.toInt = -32768 ∧ v.toInt = -1)) ∧
  fdiv (-32768) (-1) = 32768 ∧ clamp 32768 = 32767 ∧
  (∀ d : Word, clamp d.toInt = d.toInt) ∧
  (∀ r r' : Int, checkOverflow r = .ok r' → clamp r' = r') ∧
  (∀ (d : Word) (r : Int), checkUpper (d.toInt + 1) = .ok r → clamp r = r) ∧
  (∀ (d : Word) (r : Int), checkLower (d.toInt - 1) = .ok r → clamp r = r) ∧
  (∀ d v : Word, clamp (band d v) = band d v ∧ clamp (bor d v) = bor d v ∧ clamp (bnot d) = bnot d)

/-- R130: the spans of the exact results. -/
def Obligations.ExactResultsSpanTheDatapath : Prop :=
  ∀ a b : Word,
    (-65536 ≤ a.toInt + b.toInt ∧ a.toInt + b.toInt ≤ 65535) ∧
    (-65536 ≤ a.toInt - b.toInt ∧ a.toInt - b.toInt ≤ 65535) ∧
    (-1073709056 ≤ a.toInt * b.toInt ∧ a.toInt * b.toInt ≤ 1073741824) ∧
    (b.toInt ≠ 0 → -32768 ≤ fdiv a.toInt b.toInt ∧ fdiv a.toInt b.toInt ≤ 32768) ∧
    InI16 (band a b) ∧ InI16 (bor a b) ∧ InI16 (bnot a)

/-- R168, R170, R172, R174: the complement is −a − 1, bitwise results are in `I16`, and the signs and zeros of the results
are as the flag bullets say. Two's complement is the spec's own decision D17. -/
def Obligations.BitwiseResultsAndSigns : Prop :=
  ∀ a b : Word,
    bnot a = -a.toInt - 1 ∧ InI16 (band a b) ∧ InI16 (bor a b) ∧ InI16 (bnot a) ∧
    (band a b < 0 ↔ a.toInt < 0 ∧ b.toInt < 0) ∧ (band a b = 0 ↔ ∀ k, ¬(a.getLsbD k = true ∧ b.getLsbD k = true)) ∧
    (bor a b < 0 ↔ a.toInt < 0 ∨ b.toInt < 0) ∧ (bor a b = 0 ↔ a.toInt = 0 ∧ b.toInt = 0) ∧
    (bnot a < 0 ↔ 0 ≤ a.toInt) ∧ (bnot a = 0 ↔ a.toInt = -1)

/-! ### Data movement -/

/-- R140: `MOV dest, src`. That the read is tested before the write is the spec's own decision D9. -/
def Obligations.MovCopiesOneValue : Prop :=
  HasOpcode .mov 1 2 ∧ ∀ s : State, CountChecked .mov 2 s ∧ ∀ dest src line,
    ReadsOne (exec (.mov (.two dest src) line) s) s line src fun v =>
      (∀ e, writeTarget dest s = .error e → FaultsWith (exec (.mov (.two dest src) line) s) e line) ∧
      (∀ loc, writeTarget dest s = .ok loc → ∃ t, exec (.mov (.two dest src) line) s = .next t ∧
        readOperand dest t = .ok v ∧ t.pc = s.pc + 1 ∧ SameFlags s t ∧ SameOutside dest s t ∧ SameControl s t)

/-- R142: `PUSH src`: the read is tested before the stack (the spec's own decision D9); then `SP` one lower and the value at
it. -/
def Obligations.PushStoresBelowTheStackPointer : Prop :=
  HasOpcode .push 2 1 ∧ ∀ s : State, CountChecked .push 1 s ∧ ∀ src line,
    ReadsOne (exec (.push (.one src) line) s) s line src fun v =>
      (s.sp.val = 0 → FaultsWith (exec (.push (.one src) line) s) .stackOverflow line) ∧
      (s.sp.val ≠ 0 → ∃ t, exec (.push (.one src) line) s = .next t ∧ Pushed s t v ∧ t.pc = s.pc + 1)

/-- R144: `POP dest`: the stack is tested before the write; the popped cell keeps its value unless `dest` is that cell. -/
def Obligations.PopLoadsFromTheStackPointer : Prop :=
  HasOpcode .pop 3 1 ∧ ∀ s : State, CountChecked .pop 1 s ∧ ∀ dest line,
    (s.sp.val = 256 → FaultsWith (exec (.pop (.one dest) line) s) .stackUnderflow line) ∧
    (s.sp.val ≠ 256 →
      (∀ e, writeTarget dest s = .error e → FaultsWith (exec (.pop (.one dest) line) s) e line) ∧
      (∀ loc, writeTarget dest s = .ok loc → ∃ t, exec (.pop (.one dest) line) s = .next t ∧
        readOperand dest t = .ok (s.memRead s.sp.val) ∧ t.sp.val = s.sp.val + 1 ∧ t.pc = s.pc + 1 ∧ SameFlags s t ∧
        SameOutside dest s t ∧ t.halted = s.halted ∧ t.out = s.out ∧ t.params = s.params))

/-- R146: the stack laws. A `PUSH` and `POP` of one register leave every register and `SP`, and memory but for the cell
below `SP`; balanced pushes and pops bring `SP` back; the stack is last-in first-out. -/
def Obligations.StackLaws : Prop :=
  (∀ (s : State) (r : Reg) (l l' : Nat), 0 < s.sp.val → ∃ t,
    execAll [.push (.one (.reg r)) l, .pop (.one (.reg r)) l'] s = .next t ∧ SameRegs s t ∧ t.sp = s.sp ∧
    t.memRead (s.sp.val - 1) = s.reg r ∧ ∀ a, a ≠ s.sp.val - 1 → t.memRead a = s.memRead a) ∧
  (∀ (is : List Instr) (s t : State), pushes is + pops is = is.length → pushes is = pops is →
    execAll is s = .next t → t.sp = s.sp) ∧
  (∀ (s : State) (a b c d : Reg) (l : Nat), 2 ≤ s.sp.val → c ≠ d → ∃ t,
    execAll [.push (.one (.reg a)) l, .push (.one (.reg b)) l, .pop (.one (.reg c)) l, .pop (.one (.reg d)) l] s =
      .next t ∧ t.reg c = s.reg b ∧ t.reg d = s.reg a)

/-! ### Arithmetic -/

/-- R150, R152, R154: `ADD`, `SUB`, `MOL`: the exact result, `ArithmeticOverflow` outside `I16` before any write, the
write's own fault after that test, and on success the result, both flags, `pc + 1` and nothing else. The order of the
tests and the purity of the flags are the spec's own decisions D9 and D8. -/
def Obligations.AddSubMolFollowTheirRules : Prop :=
  OverflowingRule .add 4 (fun d v => d + v) ∧ OverflowingRule .sub 5 (fun d v => d - v) ∧
  OverflowingRule .mol 6 (fun d v => d * v)

/-- R156: `DIV`: `DivisionByZero` after both reads, else the floor `q` of the quotient (`q` times the divisor misses the
dividend by less than the divisor, on the floor's side), stored clamped, with the flags of `q`. -/
def Obligations.DivFloorsTheQuotient : Prop :=
  HasOpcode .div 7 2 ∧ ∀ s : State, CountChecked .div 2 s ∧ ∀ dest src line,
    ReadsBoth (exec (.div (.two dest src) line) s) s line dest src fun d v =>
      (v.toInt = 0 → FaultsWith (exec (.div (.two dest src) line) s) .divisionByZero line) ∧
      (v.toInt ≠ 0 → ∃ q : Int,
        ((0 < v.toInt ∧ q * v.toInt ≤ d.toInt ∧ d.toInt < (q + 1) * v.toInt) ∨
          (v.toInt < 0 ∧ d.toInt ≤ q * v.toInt ∧ (q + 1) * v.toInt < d.toInt)) ∧
        WritesOrFaults (exec (.div (.two dest src) line) s) s line dest (clamp q) q)

/-- R158, R160: `INC` faults at 32767 and `DEC` at −32768, each one-sided; else the operand one more, one less. -/
def Obligations.IncDecFaultAtTheirBounds : Prop :=
  BoundedRule .inc 8 1 32767 ∧ BoundedRule .dec 9 (-1) (-32768)

/-! ### Logic and compare -/

/-- R170, R172, R174: `AND`, `OR`, `NOT`: the bitwise result, the flags of it, and no overflow fault. Two's complement is the
spec's own decision D17. -/
def Obligations.AndOrNotFollowTheirRules : Prop :=
  BitwiseRule .and 10 (fun d v => d &&& v) ∧ BitwiseRule .or 11 (fun d v => d ||| v) ∧
  (HasOpcode .not 12 1 ∧ ∀ s : State, CountChecked .not 1 s ∧ ∀ dest line,
    ReadsOne (exec (.not (.one dest) line) s) s line dest fun d =>
      WritesOrFaults (exec (.not (.one dest) line) s) s line dest (-d.toInt - 1) (-d.toInt - 1))

/-- R176: `CMP op1, op2`: `ZF = (a == b)`, `SF = (a < b)` as signed integers, `pc + 1`, nothing else, and no overflow. -/
def Obligations.CmpComparesSigned : Prop :=
  HasOpcode .cmp 17 2 ∧ ∀ s : State, CountChecked .cmp 2 s ∧ ∀ a b line,
    ReadsBoth (exec (.cmp (.two a b) line) s) s line a b fun x y =>
      exec (.cmp (.two a b) line) s =
        .next { s with zf := decide (x.toInt = y.toInt), sf := decide (x.toInt < y.toInt), pc := s.pc + 1 }

/-! ### Control transfer -/

/-- R180: `JMP label`. -/
def Obligations.JmpGoesToTheLabel : Prop :=
  HasOpcode .jmp 13 1 ∧ ∀ s : State, CountChecked .jmp 1 s ∧ ∀ a line,
    JumpsTo (exec (.jmp (.one a) line) s) s line a

/-- R182, R186: `JZ` and `JS`: taken when `ZF`, when `SF` is set; the label is looked up only when taken. -/
def Obligations.JzAndJsJumpOnTheirFlags : Prop :=
  ConditionalRule .jz 14 (fun s => s.zf) ∧ ConditionalRule .js 16 (fun s => s.sf)

/-- R184: `JNZ`: taken when `ZF` is clear, the spec's own decision D18 on its polarity; looked up only when taken. -/
def Obligations.JnzJumpsWhenZeroIsClear : Prop :=
  ConditionalRule .jnz 15 (fun s => !s.zf)

/-- R188: `CALL label`: `StackOverflow` first, then `UndefinedLabel`, both before anything is pushed; then the return
address `pc + 1` pushed and `pc` at the target. That nothing is pushed first, and the order of the two tests, are the spec's
own decisions D8 and D9. -/
def Obligations.CallPushesTheReturnAddress : Prop :=
  HasOpcode .call 18 1 ∧ ∀ s : State, CountChecked .call 1 s ∧ ∀ a line,
    (s.sp.val = 0 → FaultsWith (exec (.call (.one a) line) s) .stackOverflow line) ∧
    (s.sp.val ≠ 0 →
      (∀ e, lookup a s = .error e → e = .undefinedLabel ∧ FaultsWith (exec (.call (.one a) line) s) .undefinedLabel line) ∧
      (∀ x, lookup a s = .ok x → ∃ t, exec (.call (.one a) line) s = .next t ∧ Pushed s t (s.pc + 1) ∧ t.pc = x))

/-- R190: `RET`: `StackUnderflow` on the empty stack; else `pc` takes the cell at `SP` unchecked, `SP` one higher, and
nothing else changes. That a value outside the ROM is no fault of the `RET` is the spec's own decision D7. -/
def Obligations.RetGoesToThePoppedCell : Prop :=
  HasOpcode .ret 19 0 ∧ ∀ s : State, CountChecked .ret 0 s ∧ ∀ line,
    (s.sp.val = 256 → FaultsWith (exec (.ret .zero line) s) .stackUnderflow line) ∧
    (s.sp.val ≠ 256 → ∃ t, exec (.ret .zero line) s = .next t ∧ t.pc = s.memRead s.sp.val ∧
      t.sp.val = s.sp.val + 1 ∧ SameRegs s t ∧ SameMemory s t ∧ SameFlags s t ∧ t.halted = s.halted ∧ t.out = s.out ∧
      t.params = s.params)

/-- R192: a `RET` in a state with the `SP` a `CALL` left and its return cell untouched resumes after the `CALL`, with `SP`
as before it and the return address still in the cell. -/
def Obligations.CallRetRoundTrip : Prop :=
  ∀ (s t u : State) (a : Operand) (l l' : Nat), exec (.call (.one a) l) s = .next t →
    u.sp = t.sp → u.memRead t.sp.val = t.memRead t.sp.val →
    ∃ v, exec (.ret .zero l') u = .next v ∧ v.pc = s.pc + 1 ∧ v.sp = s.sp ∧ v.memRead (s.sp.val - 1) = s.pc + 1

/-! ### System -/

/-- R200: `OUT src`: the value appended at the end of the log and shown by the output port, `pc + 1`, and nothing else; its
string is the canonical decimal one, for the rule's three examples. The output port is the spec's own decision D15 (R43), the
log of integers without a limit D16 (R36), and the string of a negative entry its general knowledge K5 under D16. -/
def Obligations.OutAppendsTheValue : Prop :=
  HasOpcode .out 20 1 ∧ ∀ s : State, CountChecked .out 1 s ∧ ∀ src line,
    ReadsOne (exec (.out (.one src) line) s) s line src fun v =>
      exec (.out (.one src) line) s = .next { s with out := s.out ++ [v], pc := s.pc + 1 } ∧
      emitted s { s with out := s.out ++ [v], pc := s.pc + 1 } = some v ∧
      State.renderedLog { s with out := [120, 0, -5] } = ["120", "0", "-5"]

/-- R202: `HLT`: `halted` set and nothing else, `PC` unchanged; with any operand it faults and does not halt; every later
`STEP` does nothing and returns no fault, and a `RESET` clears it. -/
def Obligations.HltSetsHalted : Prop :=
  HasOpcode .hlt 21 0 ∧ ∀ s : State, CountChecked .hlt 0 s ∧
    (∀ line, exec (.hlt .zero line) s = .next { s with halted := true }) ∧
    (∀ n, runCommands (List.replicate n .step) { s with halted := true } =
      ({ s with halted := true }, List.replicate n .empty)) ∧
    (command .reset { s with halted := true }).1.halted = false

/-! ### The loader -/

/-- R91, R101: no word that the loader produces has an unknown opcode. -/
def Obligations.AssembledWordsAreInstructions : Prop :=
  ∀ (t : Text) (rom : List RomWord) (lt : List Word), assemble t = .ok (rom, lt) →
    ∀ w ∈ rom, ∃ i, decode w = .ok i

/-- R81, R94: every label-table entry the loader writes is valid and designates an index in `0..ROM_LEN`, and the program
and the table are within R9. -/
def Obligations.AssembledLabelsDesignateIndexes : Prop :=
  ∀ (t : Text) (rom : List RomWord) (lt : List Word), assemble t = .ok (rom, lt) →
    (∀ e ∈ lt, labelValid e = true ∧ (labelTarget e).toNat ≤ rom.length) ∧
    rom.length ≤ 32767 ∧ lt.length ≤ 65535
end

