-- ==== Sys2Proof/Laws/Memory.lean ====
section
/-! SUPPORT. The laws of data memory: every operation keeps the canonical form, and what a read answers after a write. -/

namespace Sys2Proof.Machine

/-- The empty memory, the memory after reset, is in canonical form. -/
theorem Memory.wf_nil : Memory.wf [] := by simp [Memory.wf]

/-- The canonical form of a list: the head below the tail and no default entry, and the tail canonical. -/
theorem Memory.wf_cons {b : Nat} {w : Word} {m : Memory} :
    Memory.wf ((b, w) :: m) ↔ (∀ c ∈ m, b < c.1) ∧ b < memCells ∧ w ≠ unlistedCell ∧ Memory.wf m := by
  simp only [Memory.wf, List.pairwise_cons, List.mem_cons, forall_eq_or_imp]
  tauto

/-- Removing an entry keeps the canonical form. -/
theorem Memory.erase_wf {m : Memory} (a : Nat) (h : Memory.wf m) : Memory.wf (Memory.erase m a) :=
  ⟨h.1.filter _, fun c hc => h.2 c (List.mem_filter.1 hc).1⟩

/-- No entry of the address is left. -/
theorem Memory.ne_of_mem_erase {m : Memory} {a : Nat} {c : Nat × Word} (h : c ∈ Memory.erase m a) : c.1 ≠ a := by
  simpa using (List.mem_filter.1 h).2

/-- The entries of a list with one put in are that one and the old ones. -/
theorem Memory.mem_insert {m : Memory} {a : Nat} {v : Word} {c : Nat × Word} (h : c ∈ Memory.insert m a v) :
    c = (a, v) ∨ c ∈ m := by
  induction m with
  | nil => simpa [Memory.insert] using h
  | cons d m ih =>
    simp only [Memory.insert] at h
    split at h
    · simpa using h
    · rcases List.mem_cons.1 h with h | h
      · exact .inr (by simp [h])
      · exact (ih h).imp_right (List.mem_cons_of_mem _)

/-- Putting in an entry of a new address of the address space, not a default one, keeps the canonical form. -/
theorem Memory.insert_wf {m : Memory} {a : Nat} {v : Word} (ha : a < memCells) (hv : v ≠ unlistedCell)
    (hnew : ∀ c ∈ m, c.1 ≠ a) (h : Memory.wf m) : Memory.wf (Memory.insert m a v) := by
  induction m with
  | nil => exact Memory.wf_cons.2 ⟨by simp, ha, hv, Memory.wf_nil⟩
  | cons d m ih =>
    obtain ⟨b, w⟩ := d
    obtain ⟨hlt, hb, hw, hm⟩ := Memory.wf_cons.1 h
    have hba : b ≠ a := hnew (b, w) (by simp)
    simp only [Memory.insert]
    split
    · refine Memory.wf_cons.2 ⟨fun c hc => ?_, ha, hv, h⟩
      rcases List.mem_cons.1 hc with rfl | hc
      · assumption
      · have := hlt c hc
        omega
    · refine Memory.wf_cons.2 ⟨fun c hc => ?_, hb, hw, ih (fun c hc => hnew c (by simp [hc])) hm⟩
      rcases Memory.mem_insert hc with rfl | hc
      · dsimp only
        omega
      · exact hlt c hc

/-- A write of a cell of the address space keeps the canonical form. -/
theorem Memory.write_wf {m : Memory} {a : Nat} (v : Word) (ha : a < memCells) (h : Memory.wf m) :
    Memory.wf (Memory.write m a v) := by
  unfold Memory.write
  split
  · exact Memory.erase_wf a h
  · exact Memory.insert_wf ha ‹_› (fun c => Memory.ne_of_mem_erase) (Memory.erase_wf a h)

/-- A removed entry's cell reads as unlisted; every other reads as before. -/
theorem Memory.read_erase (m : Memory) (a b : Nat) :
    Memory.read (Memory.erase m a) b = if b = a then unlistedCell else Memory.read m b := by
  induction m with
  | nil => simp [Memory.erase, Memory.read]
  | cons d m ih =>
    obtain ⟨e, w⟩ := d
    by_cases hea : e = a
    · have : Memory.erase ((e, w) :: m) a = Memory.erase m a := by simp [Memory.erase, hea]
      rw [this, ih]
      by_cases hba : b = a
      · simp [hba]
      · simp [hba, Memory.read, hea]
    · have : Memory.erase ((e, w) :: m) a = (e, w) :: Memory.erase m a := by simp [Memory.erase, hea]
      rw [this, Memory.read, Memory.read, ih]
      by_cases hbe : b = e
      · simp [hbe, hea]
      · simp [hbe]

/-- An entry put in where its address has none is the one its cell reads; every other cell reads as before. -/
theorem Memory.read_insert {m : Memory} {a : Nat} (v : Word) (hnew : ∀ c ∈ m, c.1 ≠ a) (b : Nat) :
    Memory.read (Memory.insert m a v) b = if b = a then v else Memory.read m b := by
  induction m with
  | nil => simp [Memory.insert, Memory.read]
  | cons d m ih =>
    obtain ⟨e, w⟩ := d
    have hea : e ≠ a := hnew (e, w) (by simp)
    have ih := ih fun c hc => hnew c (by simp [hc])
    simp only [Memory.insert]
    split
    · simp [Memory.read]
    · rw [Memory.read, Memory.read, ih]
      by_cases hbe : b = e
      · simp [hbe, hea]
      · simp [hbe]

/-- R57: what a cell reads as after a write: the value where it was written, and what it was everywhere else. -/
theorem Memory.read_write (m : Memory) (a : Nat) (v : Word) (b : Nat) :
    Memory.read (Memory.write m a v) b = if b = a then v else Memory.read m b := by
  unfold Memory.write
  split
  · rw [Memory.read_erase, ‹v = unlistedCell›]
  · rw [Memory.read_insert v (fun c => Memory.ne_of_mem_erase), Memory.read_erase]
    by_cases hba : b = a <;> simp [hba]

end Sys2Proof.Machine
end

