-- ==== Sys2Proof/Laws/State.lean ====
section
/-! SUPPORT. One lemma per field per update of the state, each true by unfolding that update once, so that no later proof
unfolds a record update. -/

namespace Sys2Proof.Machine

@[simp] theorem State.setReg_pc (s : State) (r : Reg) (v : Word) : (s.setReg r v).pc = s.pc := by cases r <;> rfl
@[simp] theorem State.setReg_sp (s : State) (r : Reg) (v : Word) : (s.setReg r v).sp = s.sp := by cases r <;> rfl
@[simp] theorem State.setReg_zf (s : State) (r : Reg) (v : Word) : (s.setReg r v).zf = s.zf := by cases r <;> rfl
@[simp] theorem State.setReg_sf (s : State) (r : Reg) (v : Word) : (s.setReg r v).sf = s.sf := by cases r <;> rfl
@[simp] theorem State.setReg_halted (s : State) (r : Reg) (v : Word) : (s.setReg r v).halted = s.halted := by cases r <;> rfl
@[simp] theorem State.setReg_mem (s : State) (r : Reg) (v : Word) : (s.setReg r v).mem = s.mem := by cases r <;> rfl
@[simp] theorem State.setReg_out (s : State) (r : Reg) (v : Word) : (s.setReg r v).out = s.out := by cases r <;> rfl
@[simp] theorem State.setReg_params (s : State) (r : Reg) (v : Word) : (s.setReg r v).params = s.params := by cases r <;> rfl
@[simp] theorem State.setReg_memRead (s : State) (r : Reg) (v : Word) (b : Nat) : (s.setReg r v).memRead b = s.memRead b := by simp [State.memRead]

@[simp] theorem State.memWrite_regs (s : State) (a : Nat) (v : Word) : (s.memWrite a v).regs = s.regs := rfl
@[simp] theorem State.memWrite_pc (s : State) (a : Nat) (v : Word) : (s.memWrite a v).pc = s.pc := rfl
@[simp] theorem State.memWrite_sp (s : State) (a : Nat) (v : Word) : (s.memWrite a v).sp = s.sp := rfl
@[simp] theorem State.memWrite_zf (s : State) (a : Nat) (v : Word) : (s.memWrite a v).zf = s.zf := rfl
@[simp] theorem State.memWrite_sf (s : State) (a : Nat) (v : Word) : (s.memWrite a v).sf = s.sf := rfl
@[simp] theorem State.memWrite_halted (s : State) (a : Nat) (v : Word) : (s.memWrite a v).halted = s.halted := rfl
@[simp] theorem State.memWrite_out (s : State) (a : Nat) (v : Word) : (s.memWrite a v).out = s.out := rfl
@[simp] theorem State.memWrite_params (s : State) (a : Nat) (v : Word) : (s.memWrite a v).params = s.params := rfl
@[simp] theorem State.memWrite_reg (s : State) (a : Nat) (v : Word) (r' : Reg) : (s.memWrite a v).reg r' = s.reg r' := by cases r' <;> rfl

@[simp] theorem State.jumpTo_regs (s : State) (v : Word) : (s.jumpTo v).regs = s.regs := rfl
@[simp] theorem State.jumpTo_sp (s : State) (v : Word) : (s.jumpTo v).sp = s.sp := rfl
@[simp] theorem State.jumpTo_zf (s : State) (v : Word) : (s.jumpTo v).zf = s.zf := rfl
@[simp] theorem State.jumpTo_sf (s : State) (v : Word) : (s.jumpTo v).sf = s.sf := rfl
@[simp] theorem State.jumpTo_halted (s : State) (v : Word) : (s.jumpTo v).halted = s.halted := rfl
@[simp] theorem State.jumpTo_mem (s : State) (v : Word) : (s.jumpTo v).mem = s.mem := rfl
@[simp] theorem State.jumpTo_out (s : State) (v : Word) : (s.jumpTo v).out = s.out := rfl
@[simp] theorem State.jumpTo_params (s : State) (v : Word) : (s.jumpTo v).params = s.params := rfl
@[simp] theorem State.jumpTo_reg (s : State) (v : Word) (r' : Reg) : (s.jumpTo v).reg r' = s.reg r' := by cases r' <;> rfl
@[simp] theorem State.jumpTo_memRead (s : State) (v : Word) (b : Nat) : (s.jumpTo v).memRead b = s.memRead b := by simp [State.memRead]

@[simp] theorem State.advance_regs (s : State) : (s.advance).regs = s.regs := rfl
@[simp] theorem State.advance_sp (s : State) : (s.advance).sp = s.sp := rfl
@[simp] theorem State.advance_zf (s : State) : (s.advance).zf = s.zf := rfl
@[simp] theorem State.advance_sf (s : State) : (s.advance).sf = s.sf := rfl
@[simp] theorem State.advance_halted (s : State) : (s.advance).halted = s.halted := rfl
@[simp] theorem State.advance_mem (s : State) : (s.advance).mem = s.mem := rfl
@[simp] theorem State.advance_out (s : State) : (s.advance).out = s.out := rfl
@[simp] theorem State.advance_params (s : State) : (s.advance).params = s.params := rfl
@[simp] theorem State.advance_reg (s : State) (r' : Reg) : (s.advance).reg r' = s.reg r' := by cases r' <;> rfl
@[simp] theorem State.advance_memRead (s : State) (b : Nat) : (s.advance).memRead b = s.memRead b := by simp [State.memRead]

@[simp] theorem State.setFlags_regs (s : State) (v : Int) : (s.setFlags v).regs = s.regs := rfl
@[simp] theorem State.setFlags_pc (s : State) (v : Int) : (s.setFlags v).pc = s.pc := rfl
@[simp] theorem State.setFlags_sp (s : State) (v : Int) : (s.setFlags v).sp = s.sp := rfl
@[simp] theorem State.setFlags_halted (s : State) (v : Int) : (s.setFlags v).halted = s.halted := rfl
@[simp] theorem State.setFlags_mem (s : State) (v : Int) : (s.setFlags v).mem = s.mem := rfl
@[simp] theorem State.setFlags_out (s : State) (v : Int) : (s.setFlags v).out = s.out := rfl
@[simp] theorem State.setFlags_params (s : State) (v : Int) : (s.setFlags v).params = s.params := rfl
@[simp] theorem State.setFlags_reg (s : State) (v : Int) (r' : Reg) : (s.setFlags v).reg r' = s.reg r' := by cases r' <;> rfl
@[simp] theorem State.setFlags_memRead (s : State) (v : Int) (b : Nat) : (s.setFlags v).memRead b = s.memRead b := by simp [State.memRead]

@[simp] theorem State.emit_regs (s : State) (v : Word) : (s.emit v).regs = s.regs := rfl
@[simp] theorem State.emit_pc (s : State) (v : Word) : (s.emit v).pc = s.pc := rfl
@[simp] theorem State.emit_sp (s : State) (v : Word) : (s.emit v).sp = s.sp := rfl
@[simp] theorem State.emit_zf (s : State) (v : Word) : (s.emit v).zf = s.zf := rfl
@[simp] theorem State.emit_sf (s : State) (v : Word) : (s.emit v).sf = s.sf := rfl
@[simp] theorem State.emit_halted (s : State) (v : Word) : (s.emit v).halted = s.halted := rfl
@[simp] theorem State.emit_mem (s : State) (v : Word) : (s.emit v).mem = s.mem := rfl
@[simp] theorem State.emit_params (s : State) (v : Word) : (s.emit v).params = s.params := rfl
@[simp] theorem State.emit_reg (s : State) (v : Word) (r' : Reg) : (s.emit v).reg r' = s.reg r' := by cases r' <;> rfl
@[simp] theorem State.emit_memRead (s : State) (v : Word) (b : Nat) : (s.emit v).memRead b = s.memRead b := by simp [State.memRead]

@[simp] theorem State.store_pc (s : State) (l : Location) (v : Word) : (s.store l v).pc = s.pc := by cases l <;> simp [State.store]
@[simp] theorem State.store_sp (s : State) (l : Location) (v : Word) : (s.store l v).sp = s.sp := by cases l <;> simp [State.store]
@[simp] theorem State.store_zf (s : State) (l : Location) (v : Word) : (s.store l v).zf = s.zf := by cases l <;> simp [State.store]
@[simp] theorem State.store_sf (s : State) (l : Location) (v : Word) : (s.store l v).sf = s.sf := by cases l <;> simp [State.store]
@[simp] theorem State.store_halted (s : State) (l : Location) (v : Word) : (s.store l v).halted = s.halted := by cases l <;> simp [State.store]
@[simp] theorem State.store_out (s : State) (l : Location) (v : Word) : (s.store l v).out = s.out := by cases l <;> simp [State.store]
@[simp] theorem State.store_params (s : State) (l : Location) (v : Word) : (s.store l v).params = s.params := by cases l <;> simp [State.store]

/-- The register written reads as the value, every other as before (R21: no register is hardwired). -/
theorem State.setReg_reg (s : State) (r : Reg) (v : Word) (r' : Reg) :
    (s.setReg r v).reg r' = if r' = r then v else s.reg r' := by
  cases r <;> cases r' <;> rfl

@[simp] theorem State.setReg_reg_self (s : State) (r : Reg) (v : Word) : (s.setReg r v).reg r = v := by
  simp [State.setReg_reg]

@[simp] theorem State.memWrite_mem (s : State) (a : Nat) (v : Word) : (s.memWrite a v).mem = s.mem.write a v := rfl
@[simp] theorem State.jumpTo_pc (s : State) (v : Word) : (s.jumpTo v).pc = v := rfl
@[simp] theorem State.advance_pc (s : State) : s.advance.pc = s.nextPc := rfl
@[simp] theorem State.setFlags_zf (s : State) (v : Int) : (s.setFlags v).zf = decide (v = 0) := rfl
@[simp] theorem State.setFlags_sf (s : State) (v : Int) : (s.setFlags v).sf = decide (v < 0) := rfl
@[simp] theorem State.emit_out (s : State) (v : Word) : (s.emit v).out = s.out ++ [v] := rfl

/-- The index after depends on the program counter alone. -/
theorem State.nextPc_congr {s t : State} (h : t.pc = s.pc) : t.nextPc = s.nextPc := by
  simp [State.nextPc, h]

@[simp] theorem State.store_nextPc (s : State) (l : Location) (v : Word) : (s.store l v).nextPc = s.nextPc :=
  State.nextPc_congr (by simp)

@[simp] theorem State.setFlags_nextPc (s : State) (v : Int) : (s.setFlags v).nextPc = s.nextPc := rfl

@[simp] theorem State.emit_nextPc (s : State) (v : Word) : (s.emit v).nextPc = s.nextPc := rfl

@[simp] theorem State.construct_params (p : Params) : (State.construct p).params = p := rfl
@[simp] theorem State.construct_mem (p : Params) : (State.construct p).mem = [] := rfl
@[simp] theorem State.construct_halted (p : Params) : (State.construct p).halted = false := rfl
@[simp] theorem State.afterReset_params (s : State) : s.afterReset.params = s.params := rfl

end Sys2Proof.Machine
end

