-- ==== Sys2Proof/Laws/Operands.lean ====
section
/-! SUPPORT. For each shared operation, what it can do, said once: the provers cite these and do not unfold the
operations. -/

namespace Sys2Proof.Machine

/-! ### Sequencing -/

/-- A bind that succeeds: the first part does, and the second on its value. -/
theorem bind_ok {ε α β : Type} {x : Except ε α} {f : α → Except ε β} {b : β} :
    x >>= f = .ok b ↔ ∃ a, x = .ok a ∧ f a = .ok b := by
  cases x <;> simp [bind, Except.bind]

/-- A map that succeeds: its argument does. -/
theorem map_ok {ε α β : Type} {x : Except ε α} {f : α → β} {b : β} :
    x.map f = .ok b ↔ ∃ a, x = .ok a ∧ f a = b := by
  cases x <;> simp [Except.map]

/-- A handler's end is a next state exactly when the handler succeeded. -/
theorem commit_next {line : Nat} {r : Except FaultTag State} {t : State} :
    commit line r = .next t ↔ r = .ok t := by
  cases r <;> simp [commit, raise]

@[simp] theorem commit_error (line : Nat) (tag : FaultTag) : commit line (.error tag) = raise tag line := rfl
@[simp] theorem commit_ok (line : Nat) (t : State) : commit line (.ok t) = .next t := rfl

/-- A fault is no refusal. -/
theorem commit_ne_refused (line : Nat) (r : Except FaultTag State) (x : Refusal) :
    commit line r ≠ .refused x := by
  cases r <;> simp [commit, raise]

/-- R124: a handler of no operand ran on an empty list. -/
theorem withNone_ok {ops : Operands} {h : Except FaultTag State} {t : State} :
    withNone ops h = .ok t ↔ ops = .zero ∧ h = .ok t := by
  cases ops <;> simp [withNone]

/-- R124: a handler of one operand ran on a list of one. -/
theorem withOne_ok {ops : Operands} {h : Operand → Except FaultTag State} {t : State} :
    withOne ops h = .ok t ↔ ∃ a, ops = .one a ∧ h a = .ok t := by
  cases ops <;> simp [withOne]

/-- R124: a handler of two operands ran on a list of two. -/
theorem withTwo_ok {ops : Operands} {h : Operand → Operand → Except FaultTag State} {t : State} :
    withTwo ops h = .ok t ↔ ∃ a b, ops = .two a b ∧ h a b = .ok t := by
  cases ops <;> simp [withTwo]

/-! ### Registers and cells -/

/-- R57: reading a cell after a cell was written. -/
theorem State.memWrite_memRead (s : State) (a : Nat) (v : Word) (b : Nat) :
    (s.memWrite a v).memRead b = if b = a then v else s.memRead b :=
  Memory.read_write s.mem a v b

/-- A store changes the register it names and no other. -/
theorem State.store_reg (s : State) (loc : Location) (v : Word) (r : Reg) :
    (s.store loc v).reg r = if loc = .reg r then v else s.reg r := by
  cases loc with
  | reg r' => simp [State.store, State.setReg_reg, eq_comm]
  | cell a => simp [State.store]

/-- A store changes the cell it names and no other. -/
theorem State.store_memRead (s : State) (loc : Location) (v : Word) (a : Nat) :
    (s.store loc v).memRead a = if loc = .cell a then v else s.memRead a := by
  cases loc with
  | reg r' => simp [State.store]
  | cell b => simp [State.store, State.memWrite_memRead, eq_comm]

/-! ### The stack -/

/-- R142, R188: what a push does when the stack has room. -/
theorem State.push_of_pos {s : State} (v : Word) (h : 0 < s.sp.val) :
    s.push v = .ok { s with sp := ⟨s.sp.val - 1, by omega⟩, mem := s.mem.write (s.sp.val - 1) v } := by
  simp [State.push, show ¬s.sp.val ≤ 0 by omega]

/-- R220: a push on the full stack. -/
theorem State.push_of_zero {s : State} (v : Word) (h : s.sp.val = 0) : s.push v = .error .stackOverflow := by
  simp [State.push, h]

/-- A push that succeeds is the push of the rule. -/
theorem State.push_ok {s t : State} {v : Word} (h : s.push v = .ok t) :
    ∃ hs : 0 < s.sp.val, t = { s with sp := ⟨s.sp.val - 1, by omega⟩, mem := s.mem.write (s.sp.val - 1) v } := by
  by_cases hs : 0 < s.sp.val
  · rw [State.push_of_pos v hs] at h
    exact ⟨hs, (Except.ok.inj h).symm⟩
  · have hs : s.sp.val = 0 := by omega
    simp [State.push_of_zero v hs] at h

/-- R144, R190: what a pop does when the stack is not empty. -/
theorem State.pop_of_lt {s : State} (h : s.sp.val < 256) :
    s.pop = .ok (s.memRead s.sp.val, { s with sp := ⟨s.sp.val + 1, by omega⟩ }) := by
  simp [State.pop, show ¬s.sp.val ≥ 256 by omega]

/-- R221: a pop of the empty stack. -/
theorem State.pop_of_empty {s : State} (h : s.sp.val = 256) : s.pop = .error .stackUnderflow := by
  simp [State.pop, h]

/-- A pop that succeeds is the pop of the rule. -/
theorem State.pop_ok {s t : State} {v : Word} (h : s.pop = .ok (v, t)) :
    ∃ hs : s.sp.val < 256, v = s.memRead s.sp.val ∧ t = { s with sp := ⟨s.sp.val + 1, by omega⟩ } := by
  by_cases hs : s.sp.val < 256
  · rw [State.pop_of_lt hs] at h
    have h := Except.ok.inj h
    exact ⟨hs, (Prod.mk.inj h).1.symm, (Prod.mk.inj h).2.symm⟩
  · have hs : s.sp.val = 256 := by omega
    simp [State.pop_of_empty hs] at h

/-! ### The resolver -/

/-- R60: a clamped value is in `I16`. -/
theorem clamp_inI16 (v : Int) : InI16 (clamp v) := by
  unfold clamp
  split
  · omega
  · split <;> omega

/-- R60: `clamp` is the identity on `I16`. -/
theorem clamp_of_inI16 {v : Int} (h : InI16 v) : clamp v = v := by
  simp [clamp, show ¬v < -32768 by omega, show ¬v > 32767 by omega]

/-- The value of a 16-bit word is in `I16`. -/
theorem toInt_inI16 (w : Word) : InI16 w.toInt := by
  have := BitVec.le_toInt w
  have := BitVec.toInt_lt (x := w)
  constructor <;> omega

/-- R14: `sext_16(tc16(v)) = v` on `I16`. -/
theorem toInt_tc16 {v : Int} (h : InI16 v) : (tc16 v).toInt = v := by
  rw [tc16, BitVec.toInt_ofInt]
  exact Int.bmod_eq_of_le (by omega) (by omega)

/-- A word written back unchanged. -/
theorem tc16_toInt (w : Word) : tc16 w.toInt = w := by simp [tc16]

/-- What a word reads as is what the clamped write of its value stores (R140, R144). -/
theorem tc16_clamp_toInt (w : Word) : tc16 (clamp w.toInt) = w := by
  rw [clamp_of_inI16 (toInt_inI16 w), tc16_toInt]

/-- R51: an address that passes the bound check is a cell of the address space. -/
theorem checkAddress_ok {a : Int} {n : Nat} (h : checkAddress a = .ok n) : n < memCells ∧ (n : Int) = a := by
  unfold checkAddress at h
  split at h
  · simp at h
  · have := Except.ok.inj h
    simp only [memCells]
    omega

/-- R51: an address in 0..255 passes. -/
theorem checkAddress_of_le {a : Nat} (h : a ≤ 255) : checkAddress a = .ok a := by
  rw [checkAddress, if_neg (by omega), Int.toNat_natCast]

/-- R51: an address outside 0..255 raises. -/
theorem checkAddress_outside {a : Int} (h : a < 0 ∨ a > 255) : checkAddress a = .error .invalidMemoryAccess := by
  simp only [checkAddress, if_pos h]

/-- R63: a resolved effective address is a cell of the address space. -/
theorem effectiveAddress_lt {op : Operand} {s : State} {a : Nat} (h : effectiveAddress op s = .ok a) : a < memCells := by
  cases op <;> simp only [effectiveAddress, reduceCtorEq] at h <;> exact (checkAddress_ok h).1

/-- A cell that an operand writes is a cell of the address space. -/
theorem writeTarget_cell_lt {op : Operand} {s : State} {a : Nat} (h : writeTarget op s = .ok (.cell a)) : a < memCells := by
  cases op <;> simp only [writeTarget, map_ok, reduceCtorEq, Except.ok.injEq, Location.cell.injEq] at h
  all_goals
    obtain ⟨b, hb, rfl⟩ := h
    exact effectiveAddress_lt hb

/-- Resolving an operand for writing looks at the registers alone (R63). -/
theorem writeTarget_congr {op : Operand} {s t : State} (h : ∀ r, t.reg r = s.reg r) : writeTarget op t = writeTarget op s := by
  cases op <;> simp [writeTarget, effectiveAddress, h]

/-- Reading an operand looks at the registers and the memory alone (R64). -/
theorem readOperand_congr {op : Operand} {s t : State} (h : ∀ r, t.reg r = s.reg r) (hm : ∀ a, t.memRead a = s.memRead a) :
    readOperand op t = readOperand op s := by
  have : t.memRead = s.memRead := funext hm
  cases op <;> simp [readOperand, effectiveAddress, h, this]

/-- R65: a write that succeeds is one store of the clamped value at the operand's place. -/
theorem writeOperand_ok {op : Operand} {v : Int} {s t : State} :
    writeOperand op v s = .ok t ↔ ∃ loc, writeTarget op s = .ok loc ∧ s.store loc (tc16 (clamp v)) = t := map_ok

/-- R65: what a write raises is what resolving its place raises. -/
theorem writeOperand_error {op : Operand} {v : Int} {s : State} {e : FaultTag} (h : writeTarget op s = .error e) :
    writeOperand op v s = .error e := by
  simp [writeOperand, h, Except.map]

/-- R66: an operand read after it was written, in any state that agrees with the written one on registers and memory,
gives what was written. -/
theorem readOperand_after_store {op : Operand} {s t : State} {loc : Location} {v : Word} (h : writeTarget op s = .ok loc)
    (hr : ∀ r, t.reg r = (s.store loc v).reg r) (hm : ∀ a, t.memRead a = (s.store loc v).memRead a) :
    readOperand op t = .ok v := by
  rw [readOperand_congr hr hm]
  cases op with
  | reg r =>
    obtain rfl := Except.ok.inj h
    simp [readOperand, State.store_reg]
  | dir a =>
    obtain ⟨b, hb, rfl⟩ := map_ok.1 h
    have hb' : effectiveAddress (.dir a) (s.store (.cell b) v) = .ok b := hb
    simp [readOperand, hb', Except.map, State.store_memRead]
  | ind r =>
    obtain ⟨b, hb, rfl⟩ := map_ok.1 h
    have hb' : effectiveAddress (.ind r) (s.store (.cell b) v) = .ok b := by
      simpa [effectiveAddress, State.store_reg] using hb
    simp [readOperand, hb', Except.map, State.store_memRead]
  | imm n => simp [writeTarget] at h
  | name k => simp [writeTarget] at h
  | bad => simp [writeTarget] at h

/-- R150 to R174: the common end of an instruction that writes a result. -/
theorem writeResult_ok {dest : Operand} {r : Int} {s t : State} :
    writeResult dest r s = .ok t ↔
      ∃ loc, writeTarget dest s = .ok loc ∧ ((s.store loc (tc16 (clamp r))).setFlags r).advance = t := by
  simp [writeResult, writeOperand, map_ok]

/-- R74, R150: what a two-operand instruction did when it succeeded. -/
theorem binary_ok {f : Word → Word → Except FaultTag Int} {s t : State} {dest src : Operand} :
    binary f s dest src = .ok t ↔
      ∃ d v r, readOperand dest s = .ok d ∧ readOperand src s = .ok v ∧ f d v = .ok r ∧ writeResult dest r s = .ok t := by
  simp [binary, bind_ok]

/-- R158, R174: what a one-operand instruction did when it succeeded. -/
theorem unary_ok {f : Word → Except FaultTag Int} {s t : State} {dest : Operand} :
    unary f s dest = .ok t ↔
      ∃ d r, readOperand dest s = .ok d ∧ f d = .ok r ∧ writeResult dest r s = .ok t := by
  simp [unary, bind_ok]

/-- R150 to R154: an exact result passes the overflow test exactly when it is in `I16`. -/
theorem checkOverflow_ok {r r' : Int} : checkOverflow r = .ok r' ↔ InI16 r ∧ r' = r := by
  unfold checkOverflow
  split
  · simp
    omega
  · simp only [Except.ok.injEq]
    omega

/-- R182: what a conditional jump did when it succeeded. -/
theorem jumpIf_ok {taken : Bool} {s t : State} {a : Operand} :
    jumpIf taken s a = .ok t ↔
      (taken = true ∧ ∃ x, lookup a s = .ok x ∧ s.jumpTo x = t) ∨ (taken = false ∧ s.advance = t) := by
  cases taken <;> simp [jumpIf, map_ok]

end Sys2Proof.Machine
end

