-- ==== Sys2Proof/Laws/Assembler.lean ====
section
/-! SUPPORT. What the loader produces: the invariant of its first pass, well-formed operands, and what a text that
assembles gives. -/

namespace Sys2Proof.Machine

/-- What the first pass has collected after line `n`: lines up to `n`, opcodes of the table, labels within the program. -/
def ScanWithin (n : Nat) (sc : Scan) : Prop :=
  (∀ si ∈ sc.instrs, si.line ≤ n ∧ ∃ p ∈ mnemonicTable, si.opc = p.2) ∧ ∀ e ∈ sc.labels, e.2 ≤ sc.instrs.length

theorem ScanWithin.mono {n m : Nat} {sc : Scan} (h : ScanWithin n sc) (hn : n ≤ m) : ScanWithin m sc :=
  ⟨fun si hsi => ⟨(h.1 si hsi).1.trans hn, (h.1 si hsi).2⟩, h.2⟩

/-- R101: the number of a mnemonic stands in the table. -/
theorem mnemonicOpc_mem {word : Text} {opc : Nat} (h : mnemonicOpc word = some opc) :
    ∃ p ∈ mnemonicTable, opc = p.2 := by
  unfold mnemonicOpc at h
  generalize mnemonicTable = l at *
  induction l with
  | nil => simp at h
  | cons p l ih =>
    obtain ⟨a, b⟩ := p
    simp only [List.lookup] at h
    split at h
    · exact ⟨(a, b), by simp, (Option.some.inj h).symm⟩
    · obtain ⟨q, hq, e⟩ := ih h
      exact ⟨q, List.mem_cons_of_mem _ hq, e⟩

/-- R81: a label keeps the invariant and adds no instruction. -/
theorem scanLabel_within {l : Option Text} {line n : Nat} {sc sc' : Scan} (h : scanLabel l line sc = .ok sc')
    (hs : ScanWithin n sc) : ScanWithin n sc' := by
  unfold scanLabel at h
  split at h
  · rwa [← Except.ok.inj h]
  · simp only at h
    split at h
    · simp at h
    · split at h
      · simp at h
      · obtain rfl := Except.ok.inj h
        refine ⟨hs.1, fun e he => ?_⟩
        rcases List.mem_append.1 he with he | he
        · exact hs.2 e he
        · rw [List.mem_singleton.1 he]

theorem scanLine_within {raw : Text} {n : Nat} {sc sc' : Scan} (h : scanLine raw n sc = .ok sc')
    (hs : ScanWithin n sc) : ScanWithin n sc' := by
  unfold scanLine at h
  simp only at h
  split at h
  · exact scanLabel_within h hs
  · split at h
    · simp at h
    · rename_i opc hopc
      obtain ⟨u, hu, h⟩ := bind_ok.1 h
      have hs := scanLabel_within hu hs
      obtain rfl := Except.ok.inj h
      refine ⟨fun si hsi => ?_, fun e he => ?_⟩
      · rcases List.mem_append.1 hsi with hsi | hsi
        · exact hs.1 si hsi
        · rw [List.mem_singleton.1 hsi]
          exact ⟨Nat.le_refl _, mnemonicOpc_mem hopc⟩
      · have := hs.2 e he
        simp only [List.length_append, List.length_singleton]
        omega

/-- R100: the first pass over all lines keeps the invariant. -/
theorem scanLines_within {ls : List Text} {n : Nat} {sc sc' : Scan} (h : scanLines ls (n + 1) sc = .ok sc')
    (hs : ScanWithin n sc) : ScanWithin (n + ls.length) sc' := by
  induction ls generalizing n sc with
  | nil => rwa [← Except.ok.inj h]
  | cons l ls ih =>
    obtain ⟨u, hu, h⟩ := bind_ok.1 h
    have := ih h (scanLine_within hu (hs.mono (Nat.le_succ n)))
    rwa [List.length_cons, show n + (ls.length + 1) = n + 1 + ls.length by omega]

/-- R95: a label id is a 16-bit field. -/
theorem labelId_le {labels : List (Text × Nat)} (t : Text) (h : labels.length ≤ 65535) : labelId labels t ≤ 65535 := by
  unfold labelId
  cases hi : labels.findIdx? (fun e => e.1 == foldCase t) with
  | none => simp
  | some i =>
    have := (List.findIdx?_eq_some_iff_findIdx_eq.1 hi).1
    simp only [Option.getD_some]
    omega

/-- R107: a token gives a well-formed operand. -/
theorem dataOperand_wellFormed {labels : List (Text × Nat)} {line : Nat} {t : Text} {op : Operand}
    (hl : labels.length ≤ 65535) (h : dataOperand labels line t = .ok op) : op.wellFormed = true := by
  have := labelId_le t hl
  unfold dataOperand at h
  split at h
  · obtain rfl := Except.ok.inj h; rfl
  · split at h
    · obtain rfl := Except.ok.inj h; rfl
    · split at h
      · obtain rfl := Except.ok.inj h; rfl
      · simp at h
    · split at h
      · split at h
        · obtain rfl := Except.ok.inj h; simpa [Operand.wellFormed]
        · simp at h
      · obtain rfl := Except.ok.inj h; rfl
      · obtain rfl := Except.ok.inj h; simpa [Operand.wellFormed]
    · obtain rfl := Except.ok.inj h; simpa [Operand.wellFormed]

theorem firstOperand_wellFormed {labels : List (Text × Nat)} {si : SourceInstr} {t : Text} {op : Operand}
    (hl : labels.length ≤ 65535) (h : firstOperand labels si t = .ok op) : op.wellFormed = true := by
  unfold firstOperand at h
  split at h
  · obtain rfl := Except.ok.inj h
    simpa [Operand.wellFormed] using labelId_le t hl
  · exact dataOperand_wellFormed hl h

/-- R84, R107, R108: the operand list of a line is well formed. -/
theorem resolveOperands_wellFormed {labels : List (Text × Nat)} {si : SourceInstr} {ops : Operands}
    (hl : labels.length ≤ 65535) (h : resolveOperands labels si = .ok ops) : ops.wellFormed = true := by
  unfold resolveOperands at h
  split at h
  · obtain rfl := Except.ok.inj h; rfl
  · obtain ⟨a, ha, h⟩ := bind_ok.1 h
    obtain rfl := Except.ok.inj h
    exact firstOperand_wellFormed hl ha
  all_goals
    obtain ⟨a, ha, h⟩ := bind_ok.1 h
    obtain ⟨b, hb, h⟩ := bind_ok.1 h
    obtain rfl := Except.ok.inj h
    simp [Operands.wellFormed, firstOperand_wellFormed hl ha, dataOperand_wellFormed hl hb]

/-- One word for each instruction line, and each word from one of them. -/
theorem assembleInstrs_ok {labels : List (Text × Nat)} {sis : List SourceInstr} {rom : List RomWord}
    (h : assembleInstrs labels sis = .ok rom) :
    rom.length = sis.length ∧ ∀ w ∈ rom, ∃ si ∈ sis, assembleInstr labels si = .ok w := by
  induction sis generalizing rom with
  | nil => obtain rfl := Except.ok.inj h; simp
  | cons si sis ih =>
    obtain ⟨w, hw, h⟩ := bind_ok.1 h
    obtain ⟨ws, hws, h⟩ := bind_ok.1 h
    obtain rfl := Except.ok.inj h
    obtain ⟨h1, h2⟩ := ih hws
    refine ⟨by simp [h1], fun x hx => ?_⟩
    rcases List.mem_cons.1 hx with rfl | hx
    · exact ⟨si, by simp, hw⟩
    · obtain ⟨y, hy, e⟩ := h2 x hx
      exact ⟨y, List.mem_cons_of_mem _ hy, e⟩

/-- R106: what a text that assembles gives. -/
theorem assemble_ok {t : Text} {rom : List RomWord} {lt : List Word} (h : assemble t = .ok (rom, lt)) :
    ∃ sc, ScanWithin 65535 sc ∧ sc.instrs.length ≤ romLenMax ∧ sc.labels.length ≤ nLabelsMax ∧
      assembleInstrs sc.labels sc.instrs = .ok rom ∧ lt = sc.labels.map fun e => labelEntry e.2 := by
  unfold assemble at h
  simp only at h
  split at h
  · simp at h
  · rename_i hlen
    obtain ⟨sc, hsc, h⟩ := bind_ok.1 h
    split at h
    · simp at h
    · rename_i hi
      split at h
      · simp at h
      · rename_i hn
        obtain ⟨r, hr, h⟩ := bind_ok.1 h
        obtain ⟨rfl, rfl⟩ := Prod.mk.inj (Except.ok.inj h)
        have := scanLines_within (n := 0) hsc ⟨by simp, by simp⟩
        exact ⟨sc, this.mono (by omega), Nat.le_of_not_lt hi, Nat.le_of_not_lt hn, hr, rfl⟩

end Sys2Proof.Machine
end

