-- ==== Sys2Proof/Laws/Decode.lean ====
section
/-! SUPPORT. The fields of a packed word (spec/30_encoding.md R83), and the operand forms its slots decode to. -/

namespace Sys2Proof

/-- The fields of R83 that fit their widths. -/
structure FieldsFit (opc nops ma va mb vb line : Nat) : Prop where
  opc : opc < 32
  nops : nops < 4
  ma : ma < 8
  va : va < 65536
  mb : mb < 8
  vb : vb < 65536
  line : line < 65536

/-- A field of a word, as a number. -/
theorem romField_toNat (w : RomWord) (lo n : Nat) : (romField w lo n).toNat = w.toNat / 2 ^ lo % 2 ^ n := by
  simp [romField, BitVec.extractLsb'_toNat, Nat.shiftRight_eq_div_pow]

section
variable {opc nops ma va mb vb line : Nat} (h : FieldsFit opc nops ma va mb vb line)
include h

/-- A packed word is the sum of R83: nothing is lost in 64 bits. -/
theorem packWord_toNat :
    (packWord opc nops ma va mb vb line).toNat =
      opc * 2^59 + nops * 2^57 + ma * 2^54 + va * 2^38 + mb * 2^35 + vb * 2^19 + line := by
  obtain ⟨h1, h2, h3, h4, h5, h6, h7⟩ := h
  rw [packWord, BitVec.toNat_ofNat, Nat.mod_eq_of_lt]
  omega

theorem opcOf_packWord : opcOf (packWord opc nops ma va mb vb line) = opc := by
  rw [opcOf, romField_toNat, packWord_toNat h]
  obtain ⟨h1, h2, h3, h4, h5, h6, h7⟩ := h
  omega

theorem nopsOf_packWord : nopsOf (packWord opc nops ma va mb vb line) = nops := by
  rw [nopsOf, romField_toNat, packWord_toNat h]
  obtain ⟨h1, h2, h3, h4, h5, h6, h7⟩ := h
  omega

theorem lineOf_packWord : lineOf (packWord opc nops ma va mb vb line) = line := by
  rw [lineOf, romField_toNat, packWord_toNat h, pow_zero, Nat.div_one]
  obtain ⟨h1, h2, h3, h4, h5, h6, h7⟩ := h
  omega

theorem slotA_packWord :
    slotA (packWord opc nops ma va mb vb line) = operandOfSlot (BitVec.ofNat 3 ma) (BitVec.ofNat 16 va) := by
  have hm : romField (packWord opc nops ma va mb vb line) 54 3 = BitVec.ofNat 3 ma := by
    apply BitVec.eq_of_toNat_eq
    rw [romField_toNat, packWord_toNat h, BitVec.toNat_ofNat]
    obtain ⟨h1, h2, h3, h4, h5, h6, h7⟩ := h
    omega
  have hv : romField (packWord opc nops ma va mb vb line) 38 16 = BitVec.ofNat 16 va := by
    apply BitVec.eq_of_toNat_eq
    rw [romField_toNat, packWord_toNat h, BitVec.toNat_ofNat]
    obtain ⟨h1, h2, h3, h4, h5, h6, h7⟩ := h
    omega
  rw [slotA, hm, hv]

theorem slotB_packWord :
    slotB (packWord opc nops ma va mb vb line) = operandOfSlot (BitVec.ofNat 3 mb) (BitVec.ofNat 16 vb) := by
  have hm : romField (packWord opc nops ma va mb vb line) 35 3 = BitVec.ofNat 3 mb := by
    apply BitVec.eq_of_toNat_eq
    rw [romField_toNat, packWord_toNat h, BitVec.toNat_ofNat]
    obtain ⟨h1, h2, h3, h4, h5, h6, h7⟩ := h
    omega
  have hv : romField (packWord opc nops ma va mb vb line) 19 16 = BitVec.ofNat 16 vb := by
    apply BitVec.eq_of_toNat_eq
    rw [romField_toNat, packWord_toNat h, BitVec.toNat_ofNat]
    obtain ⟨h1, h2, h3, h4, h5, h6, h7⟩ := h
    omega
  rw [slotB, hm, hv]

end

/-- R86: a mode code fits 3 bits. -/
theorem modeOf_lt (a : Operand) : modeOf a < 8 := by cases a <;> simp [modeOf]

/-- R87: the value of a well-formed operand fits 16 bits. -/
theorem valueOf_lt {a : Operand} (h : a.wellFormed = true) : valueOf a < 65536 := by
  cases a with
  | reg r => cases r <;> simp [valueOf, regNumber]
  | ind r => cases r <;> simp [valueOf, regNumber]
  | imm n => exact n.isLt
  | dir a => have : a ≤ 65535 := by simpa [Operand.wellFormed] using h
             simp only [valueOf]; omega
  | name k => have : k ≤ 65535 := by simpa [Operand.wellFormed] using h
              simp only [valueOf]; omega
  | bad => simp [valueOf]

/-- R90: every opcode number fits 5 bits. -/
theorem opcOfInstr_lt (i : Instr) : opcOfInstr i < 32 := by cases i <;> simp [opcOfInstr]

/-- R86 to R88: a well-formed operand is read back from its mode code and value field. -/
theorem operandOfSlot_of {a : Operand} (h : a.wellFormed = true) :
    operandOfSlot (BitVec.ofNat 3 (modeOf a)) (BitVec.ofNat 16 (valueOf a)) = a := by
  cases a with
  | reg r => cases r <;> rfl
  | ind r => cases r <;> rfl
  | imm n => simp [operandOfSlot, modeOf, valueOf]
  | dir a => have : a ≤ 65535 := by simpa [Operand.wellFormed] using h
             simp [operandOfSlot, modeOf, valueOf]; omega
  | name k => have : k ≤ 65535 := by simpa [Operand.wellFormed] using h
              simp [operandOfSlot, modeOf, valueOf]; omega
  | bad => rfl

end Sys2Proof
end

