-- ==== Sys2Proof/Laws/Exec.lean ====
section
/-! SUPPORT. What an instruction and a step can do, said once. -/

namespace Sys2Proof.Machine

/-- The reach of an instruction on memory and parameters: the parameters stay, and memory stays or has one cell of the
address space written. -/
def Reaches (s t : State) : Prop :=
  t.params = s.params ∧ (t.mem = s.mem ∨ ∃ a v, a < memCells ∧ t.mem = s.mem.write a v)

/-- A store at an operand's place reaches one cell at most. -/
theorem reaches_store {op : Operand} {s u w : State} {loc : Location} (v : Word) (h : writeTarget op w = .ok loc)
    (hm : u.mem = s.mem) (hp : u.params = s.params) : Reaches s (u.store loc v) := by
  refine ⟨by simp [hp], ?_⟩
  cases loc with
  | reg r => exact .inl (by simp [State.store, hm])
  | cell a => exact .inr ⟨a, v, writeTarget_cell_lt h, by simp [State.store, hm]⟩

/-! ### Everything an instruction that completes can do -/

/-- R150 to R156, R170, R172: a two-operand result instruction stored its result at `dest` and set both flags from it. -/
theorem binary_next {f : Word → Word → Except FaultTag Int} {ops : Operands} {line : Nat} {s t : State}
    (h : commit line (withTwo ops (binary f s)) = .next t) :
    ∃ dest src loc d v r, ops = .two dest src ∧ readOperand dest s = .ok d ∧ readOperand src s = .ok v ∧ f d v = .ok r ∧
      writeTarget dest s = .ok loc ∧ t = ((s.store loc (tc16 (clamp r))).setFlags r).advance := by
  obtain ⟨dest, src, h0, h⟩ := withTwo_ok.1 (commit_next.1 h)
  obtain ⟨d, v, r, h1, h2, h3, h⟩ := binary_ok.1 h
  obtain ⟨loc, h4, rfl⟩ := writeResult_ok.1 h
  exact ⟨dest, src, loc, d, v, r, h0, h1, h2, h3, h4, rfl⟩

/-- R158, R160, R174: a one-operand result instruction, likewise. -/
theorem unary_next {f : Word → Except FaultTag Int} {ops : Operands} {line : Nat} {s t : State}
    (h : commit line (withOne ops (unary f s)) = .next t) :
    ∃ dest loc d r, ops = .one dest ∧ readOperand dest s = .ok d ∧ f d = .ok r ∧ writeTarget dest s = .ok loc ∧
      t = ((s.store loc (tc16 (clamp r))).setFlags r).advance := by
  obtain ⟨dest, h0, h⟩ := withOne_ok.1 (commit_next.1 h)
  obtain ⟨d, r, h1, h3, h⟩ := unary_ok.1 h
  obtain ⟨loc, h4, rfl⟩ := writeResult_ok.1 h
  exact ⟨dest, loc, d, r, h0, h1, h3, h4, rfl⟩

/-- R182 to R186: a conditional jump went to its label, or past itself. -/
theorem jumpIf_next {taken : Bool} {ops : Operands} {line : Nat} {s t : State}
    (h : commit line (withOne ops (jumpIf taken s)) = .next t) :
    ∃ a, ops = .one a ∧
      ((taken = true ∧ ∃ x, lookup a s = .ok x ∧ s.jumpTo x = t) ∨ (taken = false ∧ s.advance = t)) := by
  obtain ⟨a, h0, h⟩ := withOne_ok.1 (commit_next.1 h)
  exact ⟨a, h0, jumpIf_ok.1 h⟩

/-- R140. -/
theorem mov_next {ops : Operands} {line : Nat} {s t : State} (h : exec (.mov ops line) s = .next t) :
    ∃ dest src loc v, ops = .two dest src ∧ readOperand src s = .ok v ∧ writeTarget dest s = .ok loc ∧
      t = (s.store loc v).advance := by
  obtain ⟨dest, src, h0, h⟩ := withTwo_ok.1 (commit_next.1 h)
  obtain ⟨v, hv, h⟩ := bind_ok.1 h
  obtain ⟨u, hu, h⟩ := bind_ok.1 h
  obtain ⟨loc, hloc, rfl⟩ := writeOperand_ok.1 hu
  obtain rfl := Except.ok.inj h
  exact ⟨dest, src, loc, v, h0, hv, hloc, by rw [tc16_clamp_toInt]⟩

/-- R142. -/
theorem push_next {ops : Operands} {line : Nat} {s t : State} (h : exec (.push ops line) s = .next t) :
    ∃ src v, ops = .one src ∧ readOperand src s = .ok v ∧ ∃ hs : 0 < s.sp.val,
      t = State.advance { s with sp := ⟨s.sp.val - 1, by omega⟩, mem := s.mem.write (s.sp.val - 1) v } := by
  obtain ⟨src, h0, h⟩ := withOne_ok.1 (commit_next.1 h)
  obtain ⟨v, hv, h⟩ := bind_ok.1 h
  obtain ⟨u, hu, h⟩ := bind_ok.1 h
  obtain rfl := Except.ok.inj h
  obtain ⟨hs, rfl⟩ := State.push_ok hu
  exact ⟨src, v, h0, hv, hs, rfl⟩

/-- R144. -/
theorem pop_next {ops : Operands} {line : Nat} {s t : State} (h : exec (.pop ops line) s = .next t) :
    ∃ dest loc, ops = .one dest ∧ writeTarget dest s = .ok loc ∧ ∃ hs : s.sp.val < 256,
      t = (State.store { s with sp := ⟨s.sp.val + 1, by omega⟩ } loc (s.memRead s.sp.val)).advance := by
  obtain ⟨dest, h0, h⟩ := withOne_ok.1 (commit_next.1 h)
  obtain ⟨⟨v, u⟩, hu, h⟩ := bind_ok.1 h
  obtain ⟨w, hw, h⟩ := bind_ok.1 h
  obtain ⟨hs, rfl, rfl⟩ := State.pop_ok hu
  obtain ⟨loc, hloc, rfl⟩ := writeOperand_ok.1 hw
  obtain rfl := Except.ok.inj h
  refine ⟨dest, loc, h0, ?_, hs, by rw [tc16_clamp_toInt]⟩
  rw [← hloc]
  exact (writeTarget_congr fun r => by cases r <;> rfl).symm

/-- R180. -/
theorem jmp_next {ops : Operands} {line : Nat} {s t : State} (h : exec (.jmp ops line) s = .next t) :
    ∃ a x, ops = .one a ∧ lookup a s = .ok x ∧ t = s.jumpTo x := by
  obtain ⟨a, h0, h⟩ := withOne_ok.1 (commit_next.1 h)
  obtain ⟨x, hx, rfl⟩ := map_ok.1 h
  exact ⟨a, x, h0, hx, rfl⟩

/-- R176. -/
theorem cmp_next {ops : Operands} {line : Nat} {s t : State} (h : exec (.cmp ops line) s = .next t) :
    ∃ a b x y, ops = .two a b ∧ readOperand a s = .ok x ∧ readOperand b s = .ok y ∧
      t = (s.setFlags (x.toInt - y.toInt)).advance := by
  obtain ⟨a, b, h0, h⟩ := withTwo_ok.1 (commit_next.1 h)
  obtain ⟨x, hx, h⟩ := bind_ok.1 h
  obtain ⟨y, hy, h⟩ := bind_ok.1 h
  obtain rfl := Except.ok.inj h
  exact ⟨a, b, x, y, h0, hx, hy, rfl⟩

/-- R188. -/
theorem call_next {ops : Operands} {line : Nat} {s t : State} (h : exec (.call ops line) s = .next t) :
    ∃ a x, ops = .one a ∧ lookup a s = .ok x ∧ ∃ hs : 0 < s.sp.val,
      t = State.jumpTo { s with sp := ⟨s.sp.val - 1, by omega⟩, mem := s.mem.write (s.sp.val - 1) s.nextPc } x := by
  obtain ⟨a, h0, h⟩ := withOne_ok.1 (commit_next.1 h)
  obtain ⟨u, hu, h⟩ := bind_ok.1 h
  obtain ⟨x, hx, h⟩ := bind_ok.1 h
  obtain rfl := Except.ok.inj h
  obtain ⟨hs, rfl⟩ := State.push_ok hu
  exact ⟨a, x, h0, hx, hs, rfl⟩

/-- R190. -/
theorem ret_next {ops : Operands} {line : Nat} {s t : State} (h : exec (.ret ops line) s = .next t) :
    ops = .zero ∧ ∃ hs : s.sp.val < 256,
      t = State.jumpTo { s with sp := ⟨s.sp.val + 1, by omega⟩ } (s.memRead s.sp.val) := by
  obtain ⟨h0, h⟩ := withNone_ok.1 (commit_next.1 h)
  obtain ⟨⟨v, u⟩, hu, h⟩ := bind_ok.1 h
  obtain ⟨hs, rfl, rfl⟩ := State.pop_ok hu
  obtain rfl := Except.ok.inj h
  exact ⟨h0, hs, rfl⟩

/-- R200. -/
theorem out_next {ops : Operands} {line : Nat} {s t : State} (h : exec (.out ops line) s = .next t) :
    ∃ a v, ops = .one a ∧ readOperand a s = .ok v ∧ t = (s.emit v).advance := by
  obtain ⟨a, h0, h⟩ := withOne_ok.1 (commit_next.1 h)
  obtain ⟨v, hv, h⟩ := bind_ok.1 h
  obtain rfl := Except.ok.inj h
  exact ⟨a, v, h0, hv, rfl⟩

/-- R202. -/
theorem hlt_next {ops : Operands} {line : Nat} {s t : State} (h : exec (.hlt ops line) s = .next t) :
    ops = .zero ∧ t = { s with halted := true } := by
  obtain ⟨h0, h⟩ := withNone_ok.1 (commit_next.1 h)
  exact ⟨h0, (Except.ok.inj h).symm⟩

/-- Every instruction that completes leaves the parameters and writes one cell at most. -/
theorem exec_reaches {i : Instr} {s t : State} (h : exec i s = .next t) : Reaches s t := by
  have two : ∀ {f ops line}, commit line (withTwo ops (binary f s)) = .next t → Reaches s t := fun h => by
    obtain ⟨_, _, _, _, _, r, _, _, _, _, hloc, rfl⟩ := binary_next h
    simpa [Reaches] using reaches_store (tc16 (clamp r)) hloc rfl rfl
  have one : ∀ {f ops line}, commit line (withOne ops (unary f s)) = .next t → Reaches s t := fun h => by
    obtain ⟨_, _, _, r, _, _, _, hloc, rfl⟩ := unary_next h
    simpa [Reaches] using reaches_store (tc16 (clamp r)) hloc rfl rfl
  have jump : ∀ {taken ops line}, commit line (withOne ops (jumpIf taken s)) = .next t → Reaches s t := fun h => by
    obtain ⟨_, _, ⟨_, _, _, rfl⟩ | ⟨_, rfl⟩⟩ := jumpIf_next h <;> exact ⟨rfl, .inl rfl⟩
  cases i with
  | mov =>
    obtain ⟨_, _, _, v, _, _, hloc, rfl⟩ := mov_next h
    simpa [Reaches] using reaches_store v hloc rfl rfl
  | push =>
    obtain ⟨_, v, _, _, hs, rfl⟩ := push_next h
    exact ⟨rfl, .inr ⟨_, v, by have := s.sp.isLt; simp only [memCells]; omega, rfl⟩⟩
  | pop =>
    obtain ⟨_, _, _, hloc, _, rfl⟩ := pop_next h
    exact reaches_store _ hloc rfl rfl
  | add => exact two h
  | sub => exact two h
  | mol => exact two h
  | div => exact two h
  | inc => exact one h
  | dec => exact one h
  | and => exact two h
  | or => exact two h
  | not => exact one h
  | jmp => obtain ⟨_, _, _, _, rfl⟩ := jmp_next h; exact ⟨rfl, .inl rfl⟩
  | jz => exact jump h
  | jnz => exact jump h
  | js => exact jump h
  | cmp => obtain ⟨_, _, _, _, _, _, _, rfl⟩ := cmp_next h; exact ⟨rfl, .inl rfl⟩
  | call =>
    obtain ⟨_, _, _, _, hs, rfl⟩ := call_next h
    exact ⟨rfl, .inr ⟨_, s.nextPc, by have := s.sp.isLt; simp only [memCells]; omega, rfl⟩⟩
  | ret => obtain ⟨_, _, rfl⟩ := ret_next h; exact ⟨rfl, .inl rfl⟩
  | out => obtain ⟨_, _, _, _, rfl⟩ := out_next h; exact ⟨rfl, .inl rfl⟩
  | hlt => obtain ⟨_, rfl⟩ := hlt_next h; exact ⟨rfl, .inl rfl⟩

/-- A fetched word is the one at the program counter, inside the ROM (R122). -/
theorem fetch_some {s : State} {w : RomWord} (h : fetch s = some w) :
    0 ≤ s.pc.toInt ∧ s.pc.toInt < s.params.rom.length ∧ s.params.rom[s.pc.toInt.toNat]? = some w := by
  unfold fetch at h
  split at h
  · simp at h
  · exact ⟨by omega, by omega, h⟩

/-- Inside the ROM a word is fetched (R122). -/
theorem fetch_of_lt {s : State} {w : RomWord} (h0 : 0 ≤ s.pc.toInt) (h : s.pc.toInt < s.params.rom.length)
    (hw : s.params.rom[s.pc.toInt.toNat]? = some w) : fetch s = some w := by
  simp [fetch, show ¬s.pc.toInt < 0 by omega, show ¬(s.params.rom.length : Int) ≤ s.pc.toInt by omega, hw]

/-- R129: a step that completes: a halted step, or a decoded instruction that ran. -/
theorem step_next {s t : State} (h : step s = .next t) :
    (s.halted = true ∧ t = s) ∨
    (s.halted = false ∧ ∃ w i, fetch s = some w ∧ decode w = .ok i ∧ exec i s = .next t) := by
  unfold step at h
  split at h
  · exact .inl ⟨‹_›, (Host.Outcome.next.inj h).symm⟩
  · refine .inr ⟨by simpa using ‹¬s.halted = true›, ?_⟩
    split at h
    · simp [raise] at h
    · split at h
      · simp [raise] at h
      · exact ⟨_, _, ‹_›, ‹_›, h⟩

end Sys2Proof.Machine
end

