-- ==== Sys2Proof/Laws/Blind.lean ====
section
/-! SUPPORT. What a handler does not look at: a change of the state that the resolvers cannot see passes through a handler
unchanged. Stated once for each shape of handler. -/

namespace Sys2Proof.Machine

/-- A change of the state outside the registers, the memory, the parameters and `pc`, which stores and jumps keep. -/
structure Blind (f : State → State) : Prop where
  regs : ∀ s, (f s).regs = s.regs
  mem : ∀ s, (f s).mem = s.mem
  params : ∀ s, (f s).params = s.params
  pc : ∀ s, (f s).pc = s.pc
  setReg : ∀ s r v, (f s).setReg r v = f (s.setReg r v)
  memWrite : ∀ s a v, (f s).memWrite a v = f (s.memWrite a v)
  jump : ∀ s x, (f s).jumpTo x = f (s.jumpTo x)

/-- A change that the stack operations keep too. -/
structure BlindToStack (f : State → State) : Prop extends Blind f where
  push : ∀ s v, (f s).push v = (s.push v).map f
  pop : ∀ s, (f s).pop = s.pop.map fun p => (p.1, f p.2)

/-- The outcomes of two handlers whose results differ by the change. -/
theorem commit_map {f : State → State} {line : Nat} {x y : Except FaultTag State} (h : y = x.map f) :
    commit line y = mapNext f (commit line x) := by
  subst h
  cases x <;> rfl

theorem except_map_bind {ε α β γ : Type} {x : Except ε α} {g : α → Except ε β} {f : β → γ} :
    (x >>= g).map f = x >>= fun a => (g a).map f := by cases x <;> rfl

theorem except_map_map {ε α β γ : Type} {x : Except ε α} {g : α → β} {f : β → γ} :
    (x.map g).map f = x.map fun a => f (g a) := by cases x <;> rfl

theorem except_map_pure {ε α β : Type} {a : α} {f : α → β} : (pure a : Except ε α).map f = pure (f a) := rfl

theorem withTwo_map (ops : Operands) (h : Operand → Operand → Except FaultTag State) (f : State → State) :
    (withTwo ops h).map f = withTwo ops fun a b => (h a b).map f := by cases ops <;> rfl

theorem withOne_map (ops : Operands) (h : Operand → Except FaultTag State) (f : State → State) :
    (withOne ops h).map f = withOne ops fun a => (h a).map f := by cases ops <;> rfl

theorem withNone_map (ops : Operands) (h : Except FaultTag State) (f : State → State) :
    (withNone ops h).map f = withNone ops (h.map f) := by cases ops <;> rfl

variable {f : State → State}

theorem Blind.reg (hf : Blind f) (s : State) (r : Reg) : (f s).reg r = s.reg r := by
  cases r <;> simp [State.reg, hf.regs]

theorem Blind.memRead (hf : Blind f) (s : State) (a : Nat) : (f s).memRead a = s.memRead a := by
  simp [State.memRead, hf.mem]

theorem Blind.store (hf : Blind f) (s : State) (loc : Location) (v : Word) : (f s).store loc v = f (s.store loc v) := by
  cases loc with
  | reg r => exact hf.setReg s r v
  | cell a => exact hf.memWrite s a v

theorem Blind.advance (hf : Blind f) (s : State) : (f s).advance = f s.advance := by
  simp [State.advance, State.nextPc, hf.pc, hf.jump]

theorem Blind.readOperand (hf : Blind f) (op : Operand) (s : State) :
    Machine.readOperand op (f s) = Machine.readOperand op s := readOperand_congr (hf.reg s) (hf.memRead s)

theorem Blind.writeTarget (hf : Blind f) (op : Operand) (s : State) :
    Machine.writeTarget op (f s) = Machine.writeTarget op s := writeTarget_congr (hf.reg s)

theorem Blind.writeOperand (hf : Blind f) (op : Operand) (v : Int) (s : State) :
    Machine.writeOperand op v (f s) = (Machine.writeOperand op v s).map f := by
  simp [Machine.writeOperand, hf.writeTarget, except_map_map, hf.store]

theorem Blind.lookup (hf : Blind f) (op : Operand) (s : State) : Machine.lookup op (f s) = Machine.lookup op s := by
  unfold Machine.lookup
  rw [hf.params]

/-- A two-operand result instruction, where `SetFlags` keeps the change. -/
theorem Blind.binary (hf : Blind f) (hfl : ∀ s r, (f s).setFlags r = f (s.setFlags r))
    (g : Word → Word → Except FaultTag Int) (ops : Operands) (line : Nat) (s : State) :
    commit line (withTwo ops (Machine.binary g (f s))) = mapNext f (commit line (withTwo ops (Machine.binary g s))) := by
  refine commit_map ?_
  rw [withTwo_map]
  congr 1
  funext a b
  simp [Machine.binary, writeResult, hf.readOperand, hf.writeOperand, except_map_bind, except_map_map, hfl, hf.advance]

/-- A one-operand result instruction, where `SetFlags` keeps the change. -/
theorem Blind.unary (hf : Blind f) (hfl : ∀ s r, (f s).setFlags r = f (s.setFlags r))
    (g : Word → Except FaultTag Int) (ops : Operands) (line : Nat) (s : State) :
    commit line (withOne ops (Machine.unary g (f s))) = mapNext f (commit line (withOne ops (Machine.unary g s))) := by
  refine commit_map ?_
  rw [withOne_map]
  congr 1
  funext a
  simp [Machine.unary, writeResult, hf.readOperand, hf.writeOperand, except_map_bind, except_map_map, hfl, hf.advance]

/-- A conditional jump on a condition the change keeps. -/
theorem Blind.jumpIf (hf : Blind f) (taken : Bool) (ops : Operands) (line : Nat) (s : State) :
    commit line (withOne ops (Machine.jumpIf taken (f s))) =
      mapNext f (commit line (withOne ops (Machine.jumpIf taken s))) := by
  refine commit_map ?_
  rw [withOne_map]
  congr 1
  funext a
  cases taken with
  | true =>
    simp only [Machine.jumpIf, if_true, hf.lookup, except_map_map]
    exact congrArg (Except.map · _) (funext (hf.jump s))
  | false => exact congrArg Except.ok (hf.advance s)

theorem Blind.mov (hf : Blind f) (ops : Operands) (line : Nat) (s : State) :
    exec (.mov ops line) (f s) = mapNext f (exec (.mov ops line) s) := by
  refine commit_map ?_
  simp only [withTwo_map, except_map_bind, hf.readOperand, hf.writeOperand]
  congr 1
  funext a b
  congr 1
  funext v
  cases Machine.writeOperand a v.toInt s <;> simp [bind, Except.bind, Except.map, pure, Except.pure, hf.advance]

theorem Blind.jmp (hf : Blind f) (ops : Operands) (line : Nat) (s : State) :
    exec (.jmp ops line) (f s) = mapNext f (exec (.jmp ops line) s) := hf.jumpIf true ops line s

theorem Blind.cmp (hf : Blind f) (hfl : ∀ s r, (f s).setFlags r = f (s.setFlags r)) (ops : Operands) (line : Nat)
    (s : State) : exec (.cmp ops line) (f s) = mapNext f (exec (.cmp ops line) s) := by
  refine commit_map ?_
  simp only [withTwo_map, except_map_bind, except_map_pure, hf.readOperand, hfl, hf.advance]

theorem Blind.out (hf : Blind f) (he : ∀ s v, (f s).emit v = f (s.emit v)) (ops : Operands) (line : Nat) (s : State) :
    exec (.out ops line) (f s) = mapNext f (exec (.out ops line) s) := by
  refine commit_map ?_
  simp only [withOne_map, except_map_bind, except_map_pure, hf.readOperand, he, hf.advance]

theorem BlindToStack.pushed (hf : BlindToStack f) (ops : Operands) (line : Nat) (s : State) :
    exec (.push ops line) (f s) = mapNext f (exec (.push ops line) s) := by
  refine commit_map ?_
  simp only [withOne_map, except_map_bind, hf.readOperand, hf.push]
  congr 1
  funext a
  congr 1
  funext v
  cases s.push v <;> simp [bind, Except.bind, Except.map, pure, Except.pure, hf.advance]

theorem BlindToStack.popped (hf : BlindToStack f) (ops : Operands) (line : Nat) (s : State) :
    exec (.pop ops line) (f s) = mapNext f (exec (.pop ops line) s) := by
  refine commit_map ?_
  simp only [withOne_map, except_map_bind, hf.pop]
  congr 1
  funext a
  cases s.pop with
  | error e => rfl
  | ok p =>
    obtain ⟨v, u⟩ := p
    simp only [Except.map, bind, Except.bind, hf.writeOperand]
    cases Machine.writeOperand a v.toInt u <;> simp [pure, Except.pure, hf.advance]

theorem BlindToStack.call (hf : BlindToStack f) (ops : Operands) (line : Nat) (s : State) :
    exec (.call ops line) (f s) = mapNext f (exec (.call ops line) s) := by
  refine commit_map ?_
  simp only [withOne_map, except_map_bind, hf.push, hf.lookup, State.nextPc, hf.pc]
  congr 1
  funext a
  cases s.push (s.pc + 1) <;> simp [bind, Except.bind, Except.map, pure, Except.pure, hf.jump]

theorem BlindToStack.ret (hf : BlindToStack f) (ops : Operands) (line : Nat) (s : State) :
    exec (.ret ops line) (f s) = mapNext f (exec (.ret ops line) s) := by
  refine commit_map ?_
  simp only [withNone_map, except_map_bind, hf.pop]
  congr 1
  cases s.pop <;> simp [bind, Except.bind, Except.map, pure, Except.pure, hf.jump]

end Sys2Proof.Machine
end

