-- ==== Sys2Proof/Laws/PerInstr.lean ====
section
/-! SUPPORT. One lemma per constructor of Instr for each family of statements about all instructions.
EncodedFields: the fields of an encoded instruction that are not operand slots (spec/30_encoding.md R83, R84, R90). -/

namespace Sys2Proof.Laws.EncodedFields

/-- The encoded word carries the instruction's opcode number, operand count and source line. -/
def Statement (i : Instr) : Prop :=
  i.wellFormed = true →
    opcOf (encode i) = opcOfInstr i ∧ nopsOf (encode i) = i.operands.count ∧ lineOf (encode i) = i.line

/-- All the constructors have one shape. -/
theorem of_wellFormed (i : Instr) : Statement i := by
  intro h
  obtain ⟨ho, hl⟩ : i.operands.wellFormed = true ∧ i.line ≤ 65535 := by
    simpa [Instr.wellFormed] using h
  have hopc := opcOfInstr_lt i
  have hline : i.line < 65536 := by omega
  cases hops : i.operands with
  | zero =>
    have hf : FieldsFit (opcOfInstr i) 0 0 0 0 0 i.line := ⟨hopc, by omega, by omega, by omega, by omega, by omega, hline⟩
    simp only [encode, hops]
    exact ⟨opcOf_packWord hf, nopsOf_packWord hf, lineOf_packWord hf⟩
  | one a =>
    have ha : a.wellFormed = true := by simpa [hops, Operands.wellFormed] using ho
    have hf : FieldsFit (opcOfInstr i) 1 (modeOf a) (valueOf a) 0 0 i.line :=
      ⟨hopc, by omega, modeOf_lt a, valueOf_lt ha, by omega, by omega, hline⟩
    simp only [encode, hops]
    exact ⟨opcOf_packWord hf, nopsOf_packWord hf, lineOf_packWord hf⟩
  | two a b =>
    obtain ⟨ha, hb⟩ : a.wellFormed = true ∧ b.wellFormed = true := by simpa [hops, Operands.wellFormed] using ho
    have hf : FieldsFit (opcOfInstr i) 2 (modeOf a) (valueOf a) (modeOf b) (valueOf b) i.line :=
      ⟨hopc, by omega, modeOf_lt a, valueOf_lt ha, modeOf_lt b, valueOf_lt hb, hline⟩
    simp only [encode, hops]
    exact ⟨opcOf_packWord hf, nopsOf_packWord hf, lineOf_packWord hf⟩
  | more a b =>
    obtain ⟨ha, hb⟩ : a.wellFormed = true ∧ b.wellFormed = true := by simpa [hops, Operands.wellFormed] using ho
    have hf : FieldsFit (opcOfInstr i) 3 (modeOf a) (valueOf a) (modeOf b) (valueOf b) i.line :=
      ⟨hopc, by omega, modeOf_lt a, valueOf_lt ha, modeOf_lt b, valueOf_lt hb, hline⟩
    simp only [encode, hops]
    exact ⟨opcOf_packWord hf, nopsOf_packWord hf, lineOf_packWord hf⟩

theorem mov (ops : Operands) (line : Nat) : Statement (.mov ops line) := of_wellFormed _
theorem push (ops : Operands) (line : Nat) : Statement (.push ops line) := of_wellFormed _
theorem pop (ops : Operands) (line : Nat) : Statement (.pop ops line) := of_wellFormed _
theorem add (ops : Operands) (line : Nat) : Statement (.add ops line) := of_wellFormed _
theorem sub (ops : Operands) (line : Nat) : Statement (.sub ops line) := of_wellFormed _
theorem mol (ops : Operands) (line : Nat) : Statement (.mol ops line) := of_wellFormed _
theorem div (ops : Operands) (line : Nat) : Statement (.div ops line) := of_wellFormed _
theorem inc (ops : Operands) (line : Nat) : Statement (.inc ops line) := of_wellFormed _
theorem dec (ops : Operands) (line : Nat) : Statement (.dec ops line) := of_wellFormed _
theorem and (ops : Operands) (line : Nat) : Statement (.and ops line) := of_wellFormed _
theorem or (ops : Operands) (line : Nat) : Statement (.or ops line) := of_wellFormed _
theorem not (ops : Operands) (line : Nat) : Statement (.not ops line) := of_wellFormed _
theorem jmp (ops : Operands) (line : Nat) : Statement (.jmp ops line) := of_wellFormed _
theorem jz (ops : Operands) (line : Nat) : Statement (.jz ops line) := of_wellFormed _
theorem jnz (ops : Operands) (line : Nat) : Statement (.jnz ops line) := of_wellFormed _
theorem js (ops : Operands) (line : Nat) : Statement (.js ops line) := of_wellFormed _
theorem cmp (ops : Operands) (line : Nat) : Statement (.cmp ops line) := of_wellFormed _
theorem call (ops : Operands) (line : Nat) : Statement (.call ops line) := of_wellFormed _
theorem ret (ops : Operands) (line : Nat) : Statement (.ret ops line) := of_wellFormed _
theorem out (ops : Operands) (line : Nat) : Statement (.out ops line) := of_wellFormed _
theorem hlt (ops : Operands) (line : Nat) : Statement (.hlt ops line) := of_wellFormed _

end Sys2Proof.Laws.EncodedFields
end

