-- ==== Sys2Proof/Tests/Slice0.lean ====
section
/-! SUPPORT. The model's own tests, and a witness for the hypotheses of each obligation. Every expected result is a row of
spec/95_test_vectors.md (the word, the start and the result as it gives them), or is worked out by hand from the rule
named. -/

namespace Sys2Proof.Tests

open Sys2Proof.Machine

/-! ### WellFormed (R83, R85, R87): one ill-formed term for each check -/

theorem test_wf_direct_address : (Operand.dir 65536).wellFormed = false := by decide
theorem test_wf_label_id : (Operand.name 65536).wellFormed = false := by decide
theorem test_wf_one : (Operands.one (.dir 65536)).wellFormed = false := by decide
theorem test_wf_two : (Operands.two .bad (.name 65536)).wellFormed = false := by decide
theorem test_wf_more : (Operands.more (.dir 65536) .bad).wellFormed = false := by decide
theorem test_wf_line : (Instr.hlt .zero 65536).wellFormed = false := by decide
theorem test_wf_operands : (Instr.mov (.two (.reg .r0) (.dir 65536)) 1).wellFormed = false := by decide
theorem test_wf_widest : (Instr.mov (.two (.dir 65535) (.name 65535)) 65535).wellFormed = true := by decide

/-! ### Decoding (R83, R86 to R92): one word of spec/95 for every constructor, then the corners of spec/95 2.1 -/

theorem test_decode_mov : decode 0x0C400097FFF80001 = .ok (.mov (.two (.reg .r2) (.imm (-1))) 1) := by decide
theorem test_decode_push : decode 0x12BFFEC000000001 = .ok (.push (.one (.imm (-5))) 1) := by decide
theorem test_decode_pop : decode 0x1B00008000000001 = .ok (.pop (.one (.ind .r2)) 1) := by decide
theorem test_decode_add : decode 0x24C0029800580001 = .ok (.add (.two (.dir 10) (.dir 11)) 1) := by decide
theorem test_decode_sub : decode 0x2C40001400000001 = .ok (.sub (.two (.reg .r0) (.imm (-32768))) 1) := by decide
theorem test_decode_mol : decode 0x3440004800000006 = .ok (.mol (.two (.reg .r1) (.reg .r0)) 6) := by decide
theorem test_decode_div : decode 0x3CC04B1000000001 = .ok (.div (.two (.dir 300) (.imm 0)) 1) := by decide
theorem test_decode_inc : decode 0x430000C000000001 = .ok (.inc (.one (.ind .r3)) 1) := by decide
theorem test_decode_dec : decode 0x4A40000000000007 = .ok (.dec (.one (.reg .r0)) 7) := by decide
theorem test_decode_and : decode 0x54C0015000780001 = .ok (.and (.two (.dir 5) (.imm 15)) 1) := by decide
theorem test_decode_or : decode 0x5C40002000080001 = .ok (.or (.two (.reg .r0) (.ind .r1)) 1) := by decide
theorem test_decode_not : decode 0x6300004000000001 = .ok (.not (.one (.ind .r1)) 1) := by decide
theorem test_decode_jmp : decode 0x6B7FFFC000000001 = .ok (.jmp (.one (.name 65535)) 1) := by decide
theorem test_decode_jz : decode 0x7340004000000005 = .ok (.jz (.one (.name 1)) 5) := by decide
theorem test_decode_jnz : decode 0x7B40004000000004 = .ok (.jnz (.one (.name 1)) 4) := by decide
theorem test_decode_js : decode 0x834000400000000E = .ok (.js (.one (.name 1)) 14) := by decide
theorem test_decode_cmp : decode 0x8C9FFFD400000001 = .ok (.cmp (.two (.imm 32767) (.imm (-32768))) 1) := by decide
theorem test_decode_call : decode 0x9340000000000002 = .ok (.call (.one (.name 0)) 2) := by decide
theorem test_decode_ret : decode 0x980000000000000B = .ok (.ret .zero 11) := by decide
theorem test_decode_out : decode 0xA2C04B0000000001 = .ok (.out (.one (.dir 300)) 1) := by decide
theorem test_decode_hlt : decode 0xA84000D003180004 = .ok (.hlt .zero 4) := by decide
theorem test_decode_opcode_zero : decode 0x0000000000000000 = .error (.unknownOpcode 0 0) := by decide
theorem test_decode_opcode_22 : decode 0xB000000000000007 = .error (.unknownOpcode 22 7) := by decide
theorem test_decode_opcode_31 : decode 0xFFFFFFFFFFFFFFFF = .error (.unknownOpcode 31 65535) := by decide
theorem test_decode_rsv_ignored : decode 0x0C400010002F0001 = .ok (.mov (.two (.reg .r0) (.imm 5)) 1) := by decide
theorem test_decode_value_bits_ignored : decode 0x0C4FFF5000280001 = .ok (.mov (.two (.reg .r1) (.imm 5)) 1) := by decide
theorem test_decode_reserved_mode_6 : decode 0x0D80001000280001 = .ok (.mov (.two .bad (.imm 5)) 1) := by decide
theorem test_decode_reserved_mode_7 : decode 0x0C40003800280001 = .ok (.mov (.two (.reg .r0) .bad) 1) := by decide
theorem test_decode_none_mode : decode 0x0C40000000000001 = .ok (.mov (.two (.reg .r0) .bad) 1) := by decide
theorem test_decode_three_operands : decode 0x0E40000800080001 = .ok (.mov (.more (.reg .r0) (.reg .r1)) 1) := by decide

/-- The reset state of spec/95's conventions with one instruction at index 0, the registers `x`, and the label table
`[0x8009, 0x0003]`: label 0 designates index 9, entry 1 is not valid. -/
def boot (w : RomWord) (x : RegFile) : State := State.construct ⟨[w], [0x8009, 0x0003], x, false, false⟩

/-! ### One step of each instruction (spec/95 2.1 to 2.6) -/

theorem test_mov_indirect :
    command .step ({ boot 0x0D00005800A00001 ⟨0, 30, 0, 0⟩ with mem := [(20, 77)] }) =
      ({ { boot 0x0D00005800A00001 ⟨0, 30, 0, 0⟩ with mem := [(20, 77)] } with mem := [(20, 77), (30, 77)], pc := 1 }, ⟨none, none⟩) := by decide

theorem test_mov_reads_first :
    command .step (boot 0x0C80015809600001 ⟨0, 0, 0, 0⟩) = (boot 0x0C80015809600001 ⟨0, 0, 0, 0⟩, ⟨some (.runtime .invalidMemoryAccess (some 1)), none⟩) := by decide

theorem test_push_lowest :
    command .step ({ boot 0x12BFFEC000000001 ⟨0, 0, 0, 0⟩ with sp := 1 }) =
      ({ { boot 0x12BFFEC000000001 ⟨0, 0, 0, 0⟩ with sp := 1 } with sp := 0, mem := [(0, -5)], pc := 1 }, ⟨none, none⟩) := by decide

theorem test_push_reads_first :
    command .step ({ boot 0x12C04B0000000001 ⟨0, 0, 0, 0⟩ with sp := 0 }) = ({ boot 0x12C04B0000000001 ⟨0, 0, 0, 0⟩ with sp := 0 }, ⟨some (.runtime .invalidMemoryAccess (some 1)), none⟩) := by decide

theorem test_pop_indirect :
    command .step ({ boot 0x1B00008000000001 ⟨0, 0, 10, 0⟩ with sp := 200, mem := [(200, -3)] }) =
      ({ { boot 0x1B00008000000001 ⟨0, 0, 10, 0⟩ with sp := 200, mem := [(200, -3)] } with sp := 201, mem := [(10, -3), (200, -3)], pc := 1 }, ⟨none, none⟩) := by decide

theorem test_pop_stack_first :
    command .step (boot 0x1A80014000000001 ⟨0, 0, 0, 0⟩) = (boot 0x1A80014000000001 ⟨0, 0, 0, 0⟩, ⟨some (.runtime .stackUnderflow (some 1)), none⟩) := by decide

theorem test_add_zero :
    command .step ({ boot 0x24C0029800580001 ⟨0, 0, 0, 0⟩ with mem := [(10, 100), (11, -100)], sf := true }) =
      ({ { boot 0x24C0029800580001 ⟨0, 0, 0, 0⟩ with mem := [(10, 100), (11, -100)], sf := true } with mem := [(11, -100)], zf := true, sf := false, pc := 1 }, ⟨none, none⟩) := by decide

theorem test_add_overflow :
    command .step ({ boot 0x24400017FFF80001 ⟨-32768, 0, 0, 0⟩ with zf := true }) = ({ boot 0x24400017FFF80001 ⟨-32768, 0, 0, 0⟩ with zf := true }, ⟨some (.runtime .arithmeticOverflow (some 1)), none⟩) := by decide

theorem test_sub_order :
    command .step (boot 0x2C40001000080001 ⟨0, 0, 0, 0⟩) =
      ({ boot 0x2C40001000080001 ⟨0, 0, 0, 0⟩ with regs := ⟨-1, 0, 0, 0⟩, sf := true, pc := 1 }, ⟨none, none⟩) := by decide

theorem test_sub_overflow :
    command .step (boot 0x2C40001400000001 ⟨0, 0, 0, 0⟩) = (boot 0x2C40001400000001 ⟨0, 0, 0, 0⟩, ⟨some (.runtime .arithmeticOverflow (some 1)), none⟩) := by decide

theorem test_mol_negative :
    command .step (boot 0x3440000800080001 ⟨-16384, 2, 0, 0⟩) =
      ({ boot 0x3440000800080001 ⟨-16384, 2, 0, 0⟩ with regs := ⟨-32768, 2, 0, 0⟩, sf := true, pc := 1 }, ⟨none, none⟩) := by decide

theorem test_mol_overflow :
    command .step (boot 0x3440000800080001 ⟨16384, 2, 0, 0⟩) = (boot 0x3440000800080001 ⟨16384, 2, 0, 0⟩, ⟨some (.runtime .arithmeticOverflow (some 1)), none⟩) := by decide

theorem test_div_floors :
    command .step (boot 0x3C40000800080001 ⟨7, -2, 0, 0⟩) =
      ({ boot 0x3C40000800080001 ⟨7, -2, 0, 0⟩ with regs := ⟨-4, -2, 0, 0⟩, sf := true, pc := 1 }, ⟨none, none⟩) := by decide

theorem test_div_clamps :
    command .step ({ boot 0x3C400017FFF80001 ⟨-32768, 0, 0, 0⟩ with zf := true, sf := true }) =
      ({ { boot 0x3C400017FFF80001 ⟨-32768, 0, 0, 0⟩ with zf := true, sf := true } with regs := ⟨32767, 0, 0, 0⟩, zf := false, sf := false, pc := 1 }, ⟨none, none⟩) := by decide

theorem test_inc_top_cell :
    command .step (boot 0x430000C000000001 ⟨0, 0, 0, 255⟩) =
      ({ boot 0x430000C000000001 ⟨0, 0, 0, 255⟩ with mem := [(255, 1)], pc := 1 }, ⟨none, none⟩) := by decide

theorem test_inc_overflow :
    command .step ({ boot 0x4240000000000001 ⟨32767, 0, 0, 0⟩ with zf := true, sf := true }) = ({ boot 0x4240000000000001 ⟨32767, 0, 0, 0⟩ with zf := true, sf := true }, ⟨some (.runtime .arithmeticOverflow (some 1)), none⟩) := by decide

theorem test_dec_negative :
    command .step (boot 0x4A40000000000001 ⟨0, 0, 0, 0⟩) =
      ({ boot 0x4A40000000000001 ⟨0, 0, 0, 0⟩ with regs := ⟨-1, 0, 0, 0⟩, sf := true, pc := 1 }, ⟨none, none⟩) := by decide

theorem test_dec_address :
    command .step (boot 0x4B00004000000001 ⟨0, -1, 0, 0⟩) = (boot 0x4B00004000000001 ⟨0, -1, 0, 0⟩, ⟨some (.runtime .invalidMemoryAccess (some 1)), none⟩) := by decide

theorem test_and_memory :
    command .step ({ boot 0x54C0015000780001 ⟨0, 0, 0, 0⟩ with mem := [(5, 0x1234)] }) =
      ({ { boot 0x54C0015000780001 ⟨0, 0, 0, 0⟩ with mem := [(5, 0x1234)] } with mem := [(5, 4)], pc := 1 }, ⟨none, none⟩) := by decide

theorem test_and_immediate :
    command .step ({ boot 0x5480031000500001 ⟨0, 0, 0, 0⟩ with zf := true }) = ({ boot 0x5480031000500001 ⟨0, 0, 0, 0⟩ with zf := true }, ⟨some (.runtime .invalidOperand (some 1)), none⟩) := by decide

theorem test_or_indirect :
    command .step ({ boot 0x5C40002000080001 ⟨1, 9, 0, 0⟩ with mem := [(9, 6)] }) =
      ({ { boot 0x5C40002000080001 ⟨1, 9, 0, 0⟩ with mem := [(9, 6)] } with regs := ⟨7, 9, 0, 0⟩, pc := 1 }, ⟨none, none⟩) := by decide

theorem test_or_zero :
    command .step ({ boot 0x5C40001000000001 ⟨0, 0, 0, 0⟩ with sf := true }) =
      ({ { boot 0x5C40001000000001 ⟨0, 0, 0, 0⟩ with sf := true } with zf := true, sf := false, pc := 1 }, ⟨none, none⟩) := by decide

theorem test_not_most_positive :
    command .step (boot 0x6240000000000001 ⟨32767, 0, 0, 0⟩) =
      ({ boot 0x6240000000000001 ⟨32767, 0, 0, 0⟩ with regs := ⟨-32768, 0, 0, 0⟩, sf := true, pc := 1 }, ⟨none, none⟩) := by decide

theorem test_not_count :
    command .step (boot 0x6440000800080001 ⟨0, 0, 0, 0⟩) = (boot 0x6440000800080001 ⟨0, 0, 0, 0⟩, ⟨some (.runtime .operandCountMismatch (some 1)), none⟩) := by decide

theorem test_jmp_past_the_end :
    command .step (boot 0x6B40000000000001 ⟨0, 0, 0, 0⟩) =
      ({ boot 0x6B40000000000001 ⟨0, 0, 0, 0⟩ with pc := 9 }, ⟨none, none⟩) := by decide

theorem test_jmp_invalid_entry :
    command .step (boot 0x6B40004000000001 ⟨0, 0, 0, 0⟩) = (boot 0x6B40004000000001 ⟨0, 0, 0, 0⟩, ⟨some (.runtime .undefinedLabel (some 1)), none⟩) := by decide

theorem test_jz_taken :
    command .step ({ boot 0x7340000000000001 ⟨0, 0, 0, 0⟩ with zf := true }) =
      ({ { boot 0x7340000000000001 ⟨0, 0, 0, 0⟩ with zf := true } with pc := 9 }, ⟨none, none⟩) := by decide

theorem test_jz_not_looked_up :
    command .step (boot 0x737FFFC000000001 ⟨0, 0, 0, 0⟩) =
      ({ boot 0x737FFFC000000001 ⟨0, 0, 0, 0⟩ with pc := 1 }, ⟨none, none⟩) := by decide

theorem test_jnz_taken :
    command .step (boot 0x7B40000000000001 ⟨0, 0, 0, 0⟩) =
      ({ boot 0x7B40000000000001 ⟨0, 0, 0, 0⟩ with pc := 9 }, ⟨none, none⟩) := by decide

theorem test_jnz_undefined :
    command .step (boot 0x7B7FFFC000000001 ⟨0, 0, 0, 0⟩) = (boot 0x7B7FFFC000000001 ⟨0, 0, 0, 0⟩, ⟨some (.runtime .undefinedLabel (some 1)), none⟩) := by decide

theorem test_js_not_taken :
    command .step ({ boot 0x8340000000000001 ⟨0, 0, 0, 0⟩ with zf := true }) =
      ({ { boot 0x8340000000000001 ⟨0, 0, 0, 0⟩ with zf := true } with pc := 1 }, ⟨none, none⟩) := by decide

theorem test_js_undefined :
    command .step ({ boot 0x837FFFC000000001 ⟨0, 0, 0, 0⟩ with sf := true }) = ({ boot 0x837FFFC000000001 ⟨0, 0, 0, 0⟩ with sf := true }, ⟨some (.runtime .undefinedLabel (some 1)), none⟩) := by decide

theorem test_cmp_below :
    command .step (boot 0x8CA00013FFF80001 ⟨0, 0, 0, 0⟩) =
      ({ boot 0x8CA00013FFF80001 ⟨0, 0, 0, 0⟩ with sf := true, pc := 1 }, ⟨none, none⟩) := by decide

theorem test_cmp_above :
    command .step ({ boot 0x8C9FFFD400000001 ⟨0, 0, 0, 0⟩ with sf := true }) =
      ({ { boot 0x8C9FFFD400000001 ⟨0, 0, 0, 0⟩ with sf := true } with sf := false, pc := 1 }, ⟨none, none⟩) := by decide

theorem test_call_pushes :
    command .step ({ boot 0x9340000000000001 ⟨0, 0, 0, 0⟩ with sp := 1 }) =
      ({ { boot 0x9340000000000001 ⟨0, 0, 0, 0⟩ with sp := 1 } with sp := 0, mem := [(0, 1)], pc := 9 }, ⟨none, none⟩) := by decide

theorem test_call_stack_first :
    command .step ({ boot 0x937FFFC000000001 ⟨0, 0, 0, 0⟩ with sp := 0 }) = ({ boot 0x937FFFC000000001 ⟨0, 0, 0, 0⟩ with sp := 0 }, ⟨some (.runtime .stackOverflow (some 1)), none⟩) := by decide

theorem test_ret_negative :
    command .step ({ boot 0x9800000000000001 ⟨0, 0, 0, 0⟩ with sp := 255, mem := [(255, -3)] }) =
      ({ { boot 0x9800000000000001 ⟨0, 0, 0, 0⟩ with sp := 255, mem := [(255, -3)] } with sp := 256, pc := -3 }, ⟨none, none⟩) := by decide

theorem test_ret_count :
    command .step ({ boot 0x9A40000000000001 ⟨0, 0, 0, 0⟩ with sp := 255, mem := [(255, 2)] }) = ({ boot 0x9A40000000000001 ⟨0, 0, 0, 0⟩ with sp := 255, mem := [(255, 2)] }, ⟨some (.runtime .operandCountMismatch (some 1)), none⟩) := by decide

theorem test_out_memory :
    command .step ({ boot 0xA300000000000001 ⟨255, 0, 0, 0⟩ with mem := [(255, -32768)] }) =
      ({ { boot 0xA300000000000001 ⟨255, 0, 0, 0⟩ with mem := [(255, -32768)] } with out := [-32768], pc := 1 }, ⟨none, some (-32768)⟩) := by decide

theorem test_out_address :
    command .step (boot 0xA2C04B0000000001 ⟨0, 0, 0, 0⟩) = (boot 0xA2C04B0000000001 ⟨0, 0, 0, 0⟩, ⟨some (.runtime .invalidMemoryAccess (some 1)), none⟩) := by decide

theorem test_hlt_keeps_pc :
    command .step (boot 0xA84000D003180004 ⟨0, 0, 0, 0⟩) =
      ({ boot 0xA84000D003180004 ⟨0, 0, 0, 0⟩ with halted := true }, ⟨none, none⟩) := by decide

theorem test_hlt_count :
    command .step (boot 0xAA40000000000001 ⟨0, 0, 0, 0⟩) = (boot 0xAA40000000000001 ⟨0, 0, 0, 0⟩, ⟨some (.runtime .operandCountMismatch (some 1)), none⟩) := by decide

theorem test_unknown_line :
    command .step (boot 0xB000000000000007 ⟨0, 0, 0, 0⟩) = (boot 0xB000000000000007 ⟨0, 0, 0, 0⟩, ⟨some (.runtime .unknownInstruction (some 7)), none⟩) := by decide

theorem test_unknown_no_line :
    command .step (boot 0xB400000000000000 ⟨0, 0, 0, 0⟩) = (boot 0xB400000000000000 ⟨0, 0, 0, 0⟩, ⟨some (.runtime .unknownInstruction (none)), none⟩) := by decide

theorem test_count_no_line :
    command .step (boot 0x0A40000000000000 ⟨0, 0, 0, 0⟩) = (boot 0x0A40000000000000 ⟨0, 0, 0, 0⟩, ⟨some (.runtime .operandCountMismatch (none)), none⟩) := by decide

theorem test_fetch_negative :
    command .step ({ boot 0xA800000000000001 ⟨0, 0, 0, 0⟩ with pc := -3 }) = ({ boot 0xA800000000000001 ⟨0, 0, 0, 0⟩ with pc := -3 }, ⟨some (.runtime .executionOutOfBounds (none)), none⟩) := by decide

theorem test_fetch_past_the_end :
    command .step ({ boot 0xA800000000000001 ⟨0, 0, 0, 0⟩ with pc := 1 }) = ({ boot 0xA800000000000001 ⟨0, 0, 0, 0⟩ with pc := 1 }, ⟨some (.runtime .executionOutOfBounds (none)), none⟩) := by decide

theorem test_halted :
    command .step ({ boot 0x0000000000000000 ⟨0, 0, 0, 0⟩ with halted := true }) =
      ({ { boot 0x0000000000000000 ⟨0, 0, 0, 0⟩ with halted := true } with halted := true }, ⟨none, none⟩) := by decide

/-! ### The host's names -/

theorem test_table_word : decodeTableWord 64 0xA800000000000001 = some (.hlt .zero 1) := by decide
theorem test_table_word_unknown : decodeTableWord 64 0xB000000000000001 = none := by decide
theorem test_placed_word :
    command .step (State.reset.withFetchWord 64 0x0C40001000280001) =
      ({ State.reset.withFetchWord 64 0x0C40001000280001 with regs := ⟨5, 0, 0, 0⟩, pc := 1 }, .empty) := by decide

/-- R240: `RESET` after a step that wrote everything it can. -/
theorem test_reset :
    (runCommands [.step, .reset] { boot 0x1B00008000000001 ⟨0, 0, 10, 0⟩ with
      regs := ⟨1, 2, 3, 4⟩, sp := 200, mem := [(200, -3)], zf := true, sf := true, out := [1] }).1 =
      boot 0x1B00008000000001 ⟨0, 0, 10, 0⟩ := by decide

/-- R43, spec/95 2.6: the ports of an `OUT -5` step. -/
theorem test_ports :
    (drive ⟨true, .step⟩ (boot 0xA2BFFEC000000001 ⟨0, 0, 0, 0⟩)).2 = ⟨false, 0, false, 0, true, -5⟩ := by decide

/-- R211, R213: the ports of a fault with a line. -/
theorem test_fault_ports :
    (drive ⟨true, .step⟩ (boot 0xB000000000000007 ⟨0, 0, 0, 0⟩)).2 = ⟨true, 1, true, 7, false, 0⟩ := by decide

/-- R36: canonical decimal. -/
theorem test_render :
    [120, 0, -5, -32768].map renderEntry = [['1', '2', '0'], ['0'], ['-', '5'], ['-', '3', '2', '7', '6', '8']] := by decide

/-- R55: `MOV R0,5` on line 1 and the cell −2, most significant byte first. -/
theorem test_bytes :
    romWordBytes 0x0C40001000280001 = [0x0C, 0x40, 0x00, 0x10, 0x00, 0x28, 0x00, 0x01] ∧
      cellBytes (-2) = [0xFF, 0xFE] := by decide

/-! ### The loader (spec/95 part 3) -/

/-- P1, the source's factorial. -/
theorem test_assemble_factorial :
    assemble "MOV R0,5\nMOV R1,1\nFACT:\nCMP R0,1\nJZ END\nMOL R1,R0\nDEC R0\nJMP FACT\nEND:\nOUT R1\nHLT".toList =
      .ok ([0x0C40001000280001, 0x0C40005000080002, 0x8C40001000080004, 0x7340004000000005, 0x3440004800000006,
        0x4A40000000000007, 0x6B40000000000008, 0xA24000400000000A, 0xA80000000000000B], [0x8002, 0x8007]) := by decide

/-- P5: case, comments, white space, a label on a line of its own at the end. -/
theorem test_assemble_countdown :
    assemble "; counts down\nstart:  mov r0, 3      ; lower case\nLoop:   dec R0\n\tjnz LOOP\n\tjmp end\nend:\n".toList =
      .ok ([0x0C40001000180002, 0x4A40000000000003, 0x7B40004000000004, 0x6B40008000000005],
        [0x8000, 0x8001, 0x8004]) := by decide

/-- R104, R107, R108: nothing is validated; `JMP R0` carries no register. -/
theorem test_assemble_unvalidated :
    assemble "MOV R0,\nMOV R0,R1,99999\nHLT R0\nJMP R0\nMOV R0,FOO".toList =
      .ok ([0x0C40000000000001, 0x0E40000800080002, 0xAA40000000000003, 0x6B7FFFC000000004, 0x0C40002FFFF80005],
        []) := by decide

theorem test_assemble_syntax_fault : assemble "HLT\nLDA 5\nXYZ".toList = .error (.syntaxFault 2) := by decide
theorem test_assemble_range : assemble "MOV R0,32768".toList = .error (.refused .immediateRange 1) := by decide
/-- Log entry 15, the model's choice: the later SyntaxFault wins over the earlier literal out of range. -/
theorem test_assemble_error_order : assemble "MOV R0,32768\nLDA 5".toList = .error (.syntaxFault 2) := by decide
theorem test_assemble_twice : assemble "A:\na: HLT".toList = .error (.refused .duplicateLabel 2) := by decide

/-! ### Witnesses: the hypotheses of each obligation are met, each clause at a boundary of its range -/

/-- The largest of every field: the hypothesis of `DecodeOfEncodeIsTheInstruction`. -/
theorem witness_DecodeOfEncodeIsTheInstruction :
    (Instr.div (.more (.dir 65535) (.name 65535)) 65535).wellFormed = true ∧
      (Instr.hlt .zero 0).wellFormed = true := by decide

theorem witness_DecodedInstructionCarriesTheFields :
    decode 0xAFFFFFFFFFFFFFFF = .ok (.hlt (.more .bad .bad) 65535) ∧ decode 0x0800000000000000 = .ok (.mov .zero 0) := by
  decide

/-- Two words that differ in `RSV`, in `V[15:2]` of a register slot and in a slot past `NOPS`; both ends of the opcodes. -/
theorem witness_ReservedFieldsAreIgnored :
    Claims.DifferOnlyInReserved 0x0C4FFF5000280001 0x0C400050002F0001 ∧
      Claims.DifferOnlyInReserved 0xA84000D003180004 0xA800000000000004 ∧
      opcOf 0x0800000000000000 = 1 ∧ opcOf 0xA800000000000000 = 21 := by
  refine ⟨⟨by decide, by decide, by decide, fun _ => ⟨by decide, ?_⟩, fun _ => ⟨by decide, ?_⟩⟩,
    ⟨by decide, by decide, by decide, fun h => absurd h (by decide), fun h => absurd h (by decide)⟩, by decide, by decide⟩
  · show BitVec.extractLsb' 0 2 _ = BitVec.extractLsb' 0 2 _
    decide
  · show romField _ _ _ = romField _ _ _
    decide

theorem witness_StepRunsTheDecodedInstruction :
    (boot 0x0C40001000280001 ⟨0, 0, 0, 0⟩).halted = false ∧ 0 ≤ (boot 0x0C40001000280001 ⟨0, 0, 0, 0⟩).pc.toInt ∧
      (boot 0x0C40001000280001 ⟨0, 0, 0, 0⟩).pc.toInt < (boot 0x0C40001000280001 ⟨0, 0, 0, 0⟩).params.rom.length ∧
      (boot 0x0C40001000280001 ⟨0, 0, 0, 0⟩).params.rom[(boot 0x0C40001000280001 ⟨0, 0, 0, 0⟩).pc.toInt.toNat]? =
        some 0x0C40001000280001 ∧
      decode 0x0C40001000280001 = .ok (.mov (.two (.reg .r0) (.imm 5)) 1) := by decide

theorem witness_HaltedExecutorDoesNothing :
    (State.halted { boot 0xA800000000000001 ⟨0, 0, 0, 0⟩ with halted := true }) = true := by decide

/-- Just below and just past the ROM, and the empty ROM. -/
theorem witness_FetchOutsideTheRomFaults :
    (State.pc { boot 0xA800000000000001 ⟨0, 0, 0, 0⟩ with pc := -1 }).toInt < 0 ∧
      (State.pc { boot 0xA800000000000001 ⟨0, 0, 0, 0⟩ with pc := 1 }).toInt ≥
        (boot 0xA800000000000001 ⟨0, 0, 0, 0⟩).params.rom.length ∧
      Params.unloaded.rom = [] := by decide

/-- The opcodes on both sides of 1..21. -/
theorem witness_UnknownOpcodeFaults :
    fetch (boot 0x0000000000000000 ⟨0, 0, 0, 0⟩) = some 0x0000000000000000 ∧
      fetch (boot 0xB000000000000007 ⟨0, 0, 0, 0⟩) = some 0xB000000000000007 ∧
      ¬(1 ≤ opcOf 0x0000000000000000 ∧ opcOf 0x0000000000000000 ≤ 21) ∧
      ¬(1 ≤ opcOf 0xB000000000000007 ∧ opcOf 0xB000000000000007 ≤ 21) := by decide

/-- Too few and too many operands, for each expected count. -/
theorem witness_EveryHandlerChecksTheOperandCount :
    (Instr.mov (.one .bad) 1).operands.count ≠ expectedCount (.mov (.one .bad) 1) ∧
      (Instr.mov (.more .bad .bad) 1).operands.count ≠ expectedCount (.mov (.more .bad .bad) 1) ∧
      (Instr.jmp .zero 1).operands.count ≠ expectedCount (.jmp .zero 1) ∧
      (Instr.hlt (.one .bad) 1).operands.count ≠ expectedCount (.hlt (.one .bad) 1) := by decide

/-- A fault with a line, one of a word without, one with no word; also the hypothesis of `FaultIsPureAndRepeats`. -/
theorem witness_FaultCarriesTheSourceLine :
    step (boot 0xB000000000000007 ⟨0, 0, 0, 0⟩) = .fault (.runtime .unknownInstruction (some 7)) ∧
      step (boot 0xB400000000000000 ⟨0, 0, 0, 0⟩) = .fault (.runtime .unknownInstruction none) ∧
      step State.reset = .fault (.runtime .executionOutOfBounds none) := ⟨rfl, rfl, rfl⟩

theorem witness_FaultIsPureAndRepeats :
    step (boot 0x3C80019000000001 ⟨0, 0, 0, 0⟩) = .fault (.runtime .divisionByZero (some 1)) := rfl

/-- A step that writes memory, in a state of the invariant. -/
theorem witness_StepKeepsTheInvariant :
    (boot 0x0CC03FD400000001 ⟨0, 0, 0, 0⟩).Inv ∧
      step (boot 0x0CC03FD400000001 ⟨0, 0, 0, 0⟩) =
        .next { boot 0x0CC03FD400000001 ⟨0, 0, 0, 0⟩ with mem := [(255, -32768)], pc := 1 } := ⟨by decide, rfl⟩

/-- Parameters at the bounds of R9: `ResetMeetsTheInvariant`, `EveryReachableStateMeetsTheInvariant`. -/
theorem witness_params_wf :
    Params.wf ⟨List.replicate 32767 0, List.replicate 65535 0, ⟨0, 0, 0, 0⟩, false, false⟩ ∧ Params.unloaded.wf :=
  ⟨⟨List.length_replicate.le, List.length_replicate.le⟩, by decide⟩

/-- A fetch at the last index of the longest ROM. -/
theorem witness_PcNeverWraps :
    ∃ s w, s.Inv ∧ s.pc.toInt = 32766 ∧ fetch s = some w := by
  refine ⟨{ State.construct ⟨List.replicate 32767 0, [], ⟨0, 0, 0, 0⟩, false, false⟩ with pc := 32766 }, 0,
    ⟨by decide, List.length_replicate.le, Nat.zero_le _⟩, by decide, fetch_of_lt (by decide) ?_ ?_⟩
  · simp only [State.construct, List.length_replicate]
    decide
  · simp only [State.construct, List.getElem?_replicate]
    decide

theorem witness_PcAfterEachStep :
    exec (.ret .zero 1) { boot 0 ⟨0, 0, 0, 0⟩ with sp := 255, mem := [(255, -3)] } =
        .next { boot 0 ⟨0, 0, 0, 0⟩ with sp := 256, mem := [(255, -3)], pc := -3 } ∧
      exec (.jz (.one (.name 0)) 1) { boot 0 ⟨0, 0, 0, 0⟩ with zf := true } =
        .next { boot 0 ⟨0, 0, 0, 0⟩ with zf := true, pc := 9 } ∧
      exec (.jnz (.one (.name 0)) 1) { boot 0 ⟨0, 0, 0, 0⟩ with zf := true } =
        .next { boot 0 ⟨0, 0, 0, 0⟩ with zf := true, pc := 1 } := ⟨rfl, rfl, rfl⟩

theorem witness_MemoryIsDeterminedByItsCells : Memory.wf [(0, 1), (255, -1)] ∧ Memory.wf [] := by decide

theorem witness_SnapshotDeterminesTheState :
    State.Inv { boot 0 ⟨1, 2, 3, 4⟩ with mem := [(0, 1), (255, -1)] } := by decide

/-- A run of an instruction of each kind. -/
theorem witness_FlagsAreTouchedOnlyWhereTheRuleSays :
    affectsFlags (.push (.one (.imm 7)) 1) = false ∧ Claims.readsFlags (.push (.one (.imm 7)) 1) = false ∧
      Claims.readsFlags (.add (.two (.reg .r0) (.imm 1)) 1) = false ∧
      exec (.push (.one (.imm 7)) 1) (boot 0 ⟨0, 0, 0, 0⟩) =
        .next { boot 0 ⟨0, 0, 0, 0⟩ with sp := 255, mem := [(255, 7)], pc := 1 } := ⟨rfl, rfl, rfl, rfl⟩

theorem witness_FlagsNeverBothSet :
    affectsFlags (.dec (.one (.reg .r0)) 1) = true ∧
      exec (.dec (.one (.reg .r0)) 1) (boot 0 ⟨1, 0, 0, 0⟩) =
        .next { boot 0 ⟨1, 0, 0, 0⟩ with regs := ⟨0, 0, 0, 0⟩, zf := true, pc := 1 } := ⟨rfl, rfl⟩

theorem witness_StackPointerIsUsedOnlyByTheStack : Claims.usesStack (.hlt .zero 1) = false := rfl

theorem witness_OnlyHltHalts :
    step (boot 0xA800000000000001 ⟨0, 0, 0, 0⟩) = .next { boot 0xA800000000000001 ⟨0, 0, 0, 0⟩ with halted := true } ∧
      step { boot 0xA800000000000001 ⟨0, 0, 0, 0⟩ with halted := true } =
        .next { boot 0xA800000000000001 ⟨0, 0, 0, 0⟩ with halted := true } := ⟨rfl, rfl⟩

/-- A step that appends, and one on a log that is not empty. -/
theorem witness_OutputLogIsAppendOnly :
    step { boot 0xA2BFFEC000000001 ⟨0, 0, 0, 0⟩ with out := [1, 2] } =
      .next { boot 0xA2BFFEC000000001 ⟨0, 0, 0, 0⟩ with out := [1, 2, -5], pc := 1 } := rfl

theorem witness_OutPortShowsTheAppendedValue :
    (command .step (boot 0xA2BFFEC000000001 ⟨0, 0, 0, 0⟩)).2.outValue = some (-5) ∧
      decode 0xA2BFFEC000000001 = .ok (.out (.one (.imm (-5))) 1) := by decide

/-- Both sides of both bounds. -/
theorem witness_ClampSaturates :
    clamp (-32769) = -32768 ∧ clamp (-32768) = -32768 ∧ clamp 32767 = 32767 ∧ clamp 32768 = 32767 ∧
      InI16 (-32768) ∧ InI16 32767 := by decide

/-- Indirect addresses at 0, 255, 256 and −1, the hypotheses of `ReadOperandOfEachForm` and `WriteOperandOfEachForm`. -/
theorem witness_ReadOperandOfEachForm :
    ((boot 0 ⟨0, 255, 256, -1⟩).reg .r0).toInt = (0 : Nat) ∧ ((boot 0 ⟨0, 255, 256, -1⟩).reg .r1).toInt = (255 : Nat) ∧
      ((boot 0 ⟨0, 255, 256, -1⟩).reg .r2).toInt > 255 ∧ ((boot 0 ⟨0, 255, 256, -1⟩).reg .r3).toInt < 0 := by decide

theorem witness_WriteOperandOfEachForm :
    writeOperand (.ind .r1) 40000 (boot 0 ⟨0, 255, 256, -1⟩) =
        .ok { boot 0 ⟨0, 255, 256, -1⟩ with mem := [(255, 32767)] } ∧
      writeOperand (.ind .r2) 1 (boot 0 ⟨0, 255, 256, -1⟩) = .error .invalidMemoryAccess ∧
      writeOperand (.ind .r3) 1 (boot 0 ⟨0, 255, 256, -1⟩) = .error .invalidMemoryAccess := ⟨rfl, rfl, rfl⟩

/-- A valid entry, one that is not, and the first id past the table. -/
theorem witness_LookupAnswersTheValidEntry :
    (boot 0 ⟨0, 0, 0, 0⟩).params.lt[0]? = some 0x8009 ∧ BitVec.getLsbD (0x8009 : Word) 15 = true ∧
      (boot 0 ⟨0, 0, 0, 0⟩).params.lt[1]? = some 0x0003 ∧ BitVec.getLsbD (0x0003 : Word) 15 = false ∧
      2 ≥ (boot 0 ⟨0, 0, 0, 0⟩).params.lt.length := by decide

theorem witness_OnlyOneQuotientIsClamped :
    (-1 : Word).toInt ≠ 0 ∧ (-32768 : Word).toInt = -32768 ∧ checkOverflow 32767 = .ok 32767 ∧
      checkUpper ((32766 : Word).toInt + 1) = .ok 32767 ∧ checkLower ((-32767 : Word).toInt - 1) = .ok (-32768) := by decide

/-! For each instruction statement: operands and a state on which every hypothesis of a path holds together, the path that
completes and each path that faults, with the values on both sides of each test. -/

/-- `MovCopiesOneValue`: the cell 255 written, an unreadable source, an immediate and an absent cell written. -/
theorem witness_MovCopiesOneValue :
    (Operands.one .bad).count ≠ 2 ∧ readOperand (.ind .r0) (boot 0 ⟨255, 0, 0, 0⟩) = .ok 0 ∧
      writeTarget (.dir 255) (boot 0 ⟨255, 0, 0, 0⟩) = .ok (.cell 255) ∧
      readOperand (.name 0) (boot 0 ⟨255, 0, 0, 0⟩) = .error .invalidOperand ∧
      writeTarget (.imm 5) (boot 0 ⟨255, 0, 0, 0⟩) = .error .invalidOperand ∧
      writeTarget (.dir 256) (boot 0 ⟨255, 0, 0, 0⟩) = .error .invalidMemoryAccess := by decide

/-- `PushStoresBelowTheStackPointer`: `SP` 0 and 1. -/
theorem witness_PushStoresBelowTheStackPointer :
    (Operands.two .bad .bad).count ≠ 1 ∧
      (readOperand (.imm 7) { boot 0 ⟨0, 0, 0, 0⟩ with sp := 0 } = .ok 7 ∧
        (State.sp { boot 0 ⟨0, 0, 0, 0⟩ with sp := 0 }).val = 0) ∧
      (readOperand (.imm 7) { boot 0 ⟨0, 0, 0, 0⟩ with sp := 1 } = .ok 7 ∧
        (State.sp { boot 0 ⟨0, 0, 0, 0⟩ with sp := 1 }).val ≠ 0) ∧
      readOperand (.dir 256) (boot 0 ⟨0, 0, 0, 0⟩) = .error .invalidMemoryAccess := by decide

/-- `PopLoadsFromTheStackPointer`: `SP` 256 and 255. -/
theorem witness_PopLoadsFromTheStackPointer :
    (Operands.zero).count ≠ 1 ∧ (boot 0 ⟨0, 0, 0, 0⟩).sp.val = 256 ∧
      ((State.sp { boot 0 ⟨0, 0, 0, 0⟩ with sp := 255 }).val ≠ 256 ∧
        writeTarget (.ind .r0) { boot 0 ⟨0, 0, 0, 0⟩ with sp := 255 } = .ok (.cell 0) ∧
        writeTarget (.imm 5) { boot 0 ⟨0, 0, 0, 0⟩ with sp := 255 } = .error .invalidOperand) := by decide

/-- The registers of the first and the last-in first-out law, at the least `SP` of each. -/
theorem witness_StackLaws_least_sp :
    0 < (State.sp { boot 0 ⟨0, 0, 0, 0⟩ with sp := 1 }).val ∧
      2 ≤ (State.sp { boot 0 ⟨0, 0, 0, 0⟩ with sp := 2 }).val ∧ Reg.r0 ≠ Reg.r1 := by decide

theorem witness_StackLaws :
    Claims.pushes [.push (.one (.imm 1)) 1, .pop (.one (.reg .r0)) 2] +
        Claims.pops [.push (.one (.imm 1)) 1, .pop (.one (.reg .r0)) 2] = 2 ∧
      Claims.pushes [.push (.one (.imm 1)) 1, .pop (.one (.reg .r0)) 2] =
        Claims.pops [.push (.one (.imm 1)) 1, .pop (.one (.reg .r0)) 2] ∧
      execAll [.push (.one (.imm 1)) 1, .pop (.one (.reg .r0)) 2] (boot 0 ⟨0, 0, 0, 0⟩) =
        .next { boot 0 ⟨1, 0, 0, 0⟩ with mem := [(255, 1)], pc := 2, params := (boot 0 ⟨0, 0, 0, 0⟩).params } :=
  ⟨rfl, rfl, rfl⟩

/-- `AddSubMolFollowTheirRules`: each exact result just inside and just outside `I16`. -/
theorem witness_AddSubMolFollowTheirRules :
    (Operands.more .bad .bad).count ≠ 2 ∧
      (readOperand (.reg .r0) (boot 0 ⟨32766, -1, -16384, 16384⟩) = .ok 32766 ∧
        readOperand (.imm 1) (boot 0 ⟨32766, -1, -16384, 16384⟩) = .ok 1 ∧
        InI16 ((32766 : Word).toInt + (1 : Word).toInt) ∧
        writeTarget (.reg .r0) (boot 0 ⟨32766, -1, -16384, 16384⟩) = .ok (.reg .r0)) ∧
      ¬InI16 ((32766 : Word).toInt + (2 : Word).toInt) ∧
      (readOperand (.reg .r1) (boot 0 ⟨32766, -1, -16384, 16384⟩) = .ok (-1) ∧
        readOperand (.imm (-32768)) (boot 0 ⟨32766, -1, -16384, 16384⟩) = .ok (-32768) ∧
        InI16 ((-1 : Word).toInt - (-32768 : Word).toInt)) ∧ ¬InI16 ((0 : Word).toInt - (-32768 : Word).toInt) ∧
      (readOperand (.reg .r2) (boot 0 ⟨32766, -1, -16384, 16384⟩) = .ok (-16384) ∧
        InI16 ((-16384 : Word).toInt * (2 : Word).toInt)) ∧
      (readOperand (.reg .r3) (boot 0 ⟨32766, -1, -16384, 16384⟩) = .ok 16384 ∧
        ¬InI16 ((16384 : Word).toInt * (2 : Word).toInt)) := by decide

/-- `ADD 5,3`, an unreadable `dest`, an unreadable `src`: the faulting paths of the two-operand statements. -/
theorem witness_faulting_paths :
    (readOperand (.imm 5) (boot 0 ⟨0, 0, 0, 0⟩) = .ok 5 ∧ readOperand (.imm 3) (boot 0 ⟨0, 0, 0, 0⟩) = .ok 3 ∧
        InI16 ((5 : Word).toInt + (3 : Word).toInt) ∧ (3 : Word).toInt ≠ 0 ∧
        writeTarget (.imm 5) (boot 0 ⟨0, 0, 0, 0⟩) = .error .invalidOperand) ∧
      readOperand (.dir 300) (boot 0 ⟨0, 0, 0, 0⟩) = .error .invalidMemoryAccess ∧
      (readOperand (.reg .r0) (boot 0 ⟨0, 0, 0, 0⟩) = .ok 0 ∧
        readOperand (.name 0) (boot 0 ⟨0, 0, 0, 0⟩) = .error .invalidOperand) := by decide

/-- `DivFloorsTheQuotient`: a zero divisor, and each sign of a divisor with the floor it asks for. -/
theorem witness_DivFloorsTheQuotient :
    (Operands.one .bad).count ≠ 2 ∧
      (readOperand (.reg .r0) (boot 0 ⟨-7, 2, 0, -2⟩) = .ok (-7) ∧ readOperand (.reg .r1) (boot 0 ⟨-7, 2, 0, -2⟩) = .ok 2 ∧
        (2 : Word).toInt ≠ 0 ∧ writeTarget (.reg .r0) (boot 0 ⟨-7, 2, 0, -2⟩) = .ok (.reg .r0)) ∧
      (readOperand (.reg .r2) (boot 0 ⟨-7, 2, 0, -2⟩) = .ok 0 ∧ (0 : Word).toInt = 0) ∧
      (0 < (2 : Word).toInt ∧ -4 * (2 : Word).toInt ≤ (-7 : Word).toInt ∧ (-7 : Word).toInt < (-4 + 1) * (2 : Word).toInt) ∧
      ((-2 : Word).toInt < 0 ∧ (7 : Word).toInt ≤ -4 * (-2 : Word).toInt ∧
        (-4 + 1) * (-2 : Word).toInt < (7 : Word).toInt) := by decide

/-- `IncDecFaultAtTheirBounds`: each bound and the value beside it. -/
theorem witness_IncDecFaultAtTheirBounds :
    (Operands.two .bad .bad).count ≠ 1 ∧
      (readOperand (.reg .r0) (boot 0 ⟨32767, 32766, -32768, -32767⟩) = .ok 32767 ∧ (32767 : Word).toInt = 32767) ∧
      (readOperand (.reg .r1) (boot 0 ⟨32767, 32766, -32768, -32767⟩) = .ok 32766 ∧ (32766 : Word).toInt ≠ 32767 ∧
        writeTarget (.reg .r1) (boot 0 ⟨32767, 32766, -32768, -32767⟩) = .ok (.reg .r1)) ∧
      (readOperand (.reg .r2) (boot 0 ⟨32767, 32766, -32768, -32767⟩) = .ok (-32768) ∧ (-32768 : Word).toInt = -32768) ∧
      (readOperand (.reg .r3) (boot 0 ⟨32767, 32766, -32768, -32767⟩) = .ok (-32767) ∧ (-32767 : Word).toInt ≠ -32768 ∧
        writeTarget (.reg .r3) (boot 0 ⟨32767, 32766, -32768, -32767⟩) = .ok (.reg .r3)) := by decide

/-- `AndOrNotFollowTheirRules`: both operands in memory, the first through a register. -/
theorem witness_AndOrNotFollowTheirRules :
    (Operands.zero).count ≠ 2 ∧
      readOperand (.ind .r0) { boot 0 ⟨255, 0, 0, 0⟩ with mem := [(0, 3), (255, -6)] } = .ok (-6) ∧
      readOperand (.dir 0) { boot 0 ⟨255, 0, 0, 0⟩ with mem := [(0, 3), (255, -6)] } = .ok 3 ∧
      writeTarget (.ind .r0) { boot 0 ⟨255, 0, 0, 0⟩ with mem := [(0, 3), (255, -6)] } = .ok (.cell 255) := by decide

/-- `CmpComparesSigned`: the two ends of the range. -/
theorem witness_CmpComparesSigned :
    (Operands.one .bad).count ≠ 2 ∧ readOperand (.imm (-32768)) (boot 0 ⟨32767, 0, 0, 0⟩) = .ok (-32768) ∧
      readOperand (.reg .r0) (boot 0 ⟨32767, 0, 0, 0⟩) = .ok 32767 := by decide

/-- `JmpGoesToTheLabel`: a label that resolves, an entry that is not valid, an operand that is no name. -/
theorem witness_JmpGoesToTheLabel :
    (Operands.zero).count ≠ 1 ∧ lookup (.name 0) (boot 0 ⟨0, 0, 0, 0⟩) = .ok 9 ∧
      lookup (.name 1) (boot 0 ⟨0, 0, 0, 0⟩) = .error .undefinedLabel ∧
      lookup (.reg .r0) (boot 0 ⟨0, 0, 0, 0⟩) = .error .undefinedLabel := by decide

/-- `JzAndJsJumpOnTheirFlags`, `JnzJumpsWhenZeroIsClear`: each flag both ways, with a label that resolves and one not. -/
theorem witness_conditional_jumps :
    ((boot 0 ⟨0, 0, 0, 0⟩).zf = false ∧ (boot 0 ⟨0, 0, 0, 0⟩).sf = false ∧ (!(boot 0 ⟨0, 0, 0, 0⟩).zf) = true ∧
        lookup (.name 0) (boot 0 ⟨0, 0, 0, 0⟩) = .ok 9) ∧
      ((State.zf { boot 0 ⟨0, 0, 0, 0⟩ with zf := true, sf := true }) = true ∧
        (State.sf { boot 0 ⟨0, 0, 0, 0⟩ with zf := true, sf := true }) = true ∧
        (!(State.zf { boot 0 ⟨0, 0, 0, 0⟩ with zf := true, sf := true })) = false ∧
        lookup (.name 0) { boot 0 ⟨0, 0, 0, 0⟩ with zf := true, sf := true } = .ok 9 ∧
        lookup (.name 65535) { boot 0 ⟨0, 0, 0, 0⟩ with zf := true, sf := true } = .error .undefinedLabel) := by decide

/-- `CallPushesTheReturnAddress`: `SP` 0 and 1, a label that resolves and one that does not. -/
theorem witness_CallPushesTheReturnAddress :
    (State.sp { boot 0 ⟨0, 0, 0, 0⟩ with sp := 0 }).val = 0 ∧
      ((State.sp { boot 0 ⟨0, 0, 0, 0⟩ with sp := 1 }).val ≠ 0 ∧
        lookup (.name 0) { boot 0 ⟨0, 0, 0, 0⟩ with sp := 1 } = .ok 9 ∧
        lookup (.name 2) { boot 0 ⟨0, 0, 0, 0⟩ with sp := 1 } = .error .undefinedLabel) := by decide

/-- `RetGoesToThePoppedCell`: `SP` 256, 255 and 0. -/
theorem witness_RetGoesToThePoppedCell :
    (Operands.one .bad).count ≠ 0 ∧ (boot 0 ⟨0, 0, 0, 0⟩).sp.val = 256 ∧
      (State.sp { boot 0 ⟨0, 0, 0, 0⟩ with sp := 255 }).val ≠ 256 ∧
      (State.sp { boot 0 ⟨0, 0, 0, 0⟩ with sp := 0 }).val ≠ 256 := by decide

/-- `OutAppendsTheValue`: a readable and an unreadable operand. -/
theorem witness_OutAppendsTheValue :
    readOperand (.dir 255) { boot 0 ⟨0, 0, 0, 0⟩ with mem := [(255, -5)] } = .ok (-5) ∧
      readOperand .bad (boot 0 ⟨0, 0, 0, 0⟩) = .error .invalidOperand := by decide

theorem witness_HltSetsHalted : (Operands.more .bad .bad).count ≠ 0 := by decide

/-- A `CALL` that completes, and the state it leaves, which meets the other two hypotheses. -/
theorem witness_CallRetRoundTrip :
    exec (.call (.one (.name 0)) 1) { boot 0 ⟨0, 0, 0, 0⟩ with sp := 1 } =
      .next { boot 0 ⟨0, 0, 0, 0⟩ with sp := 0, mem := [(0, 1)], pc := 9 } := rfl

theorem witness_AssembledWordsAreInstructions :
    assemble "L: CALL L".toList = .ok ([0x9340000000000001], [0x8000]) := by decide

theorem witness_AssembledLabelsDesignateIndexes :
    assemble "HLT\nEND:".toList = .ok ([0xA800000000000001], [0x8001]) := by decide

end Sys2Proof.Tests
end

section
/-! What a step, a command and a run keep, and the parameters among it (R9, R73). -/

namespace Sys2Proof.Machine

/-- R129, R51: a step that completes leaves the parameters and writes one cell at most, as the instruction it ran does. -/
theorem step_reaches {s t : State} (h : step s = .next t) : Reaches s t := by
  obtain ⟨_, rfl⟩ | ⟨_, _, _, _, _, hexec⟩ := step_next h
  · exact ⟨rfl, .inl rfl⟩
  · exact exec_reaches hexec

/-- What `RESET` and every completing step keep, a command keeps: a faulting `STEP` returns the state it was given
(R225). -/
theorem command_keeps {P : State → Prop} (reset : ∀ s, P s → P s.afterReset)
    (next : ∀ s t, step s = .next t → P s → P t) (c : Command) {s : State} (hs : P s) : P (command c s).1 := by
  cases c with
  | reset => exact reset s hs
  | step =>
    unfold command
    cases h : step s with
    | next t => exact next s t h hs
    | fault f => exact hs
    | refused x => exact hs

/-- The induction over a run, once (R12): what `RESET` and every completing step keep, every sequence of commands keeps. -/
theorem runCommands_keeps {P : State → Prop} (reset : ∀ s, P s → P s.afterReset)
    (next : ∀ s t, step s = .next t → P s → P t) (cs : List Command) {s : State} (hs : P s) :
    P (runCommands cs s).1 := by
  induction cs generalizing s with
  | nil => exact hs
  | cons c cs ih => exact ih (command_keeps reset next c hs)

/-- Settles O16: `RESET` and every step keep the property of having the parameters of the start. -/
theorem parametersAreImmutable : Obligations.ParametersAreImmutable := by
  intro cs s
  refine runCommands_keeps (P := fun t => t.params = s.params) ?reset ?next cs rfl
  case reset => exact fun u hu => (State.afterReset_params u).trans hu
  case next =>
    intro u t h hu
    obtain ⟨hparams, _⟩ := step_reaches h
    exact hparams.trans hu

end Sys2Proof.Machine
end

section
/-! The invariant (R45, R51, R9): construction establishes it, every step and every run keep it. -/

namespace Sys2Proof.Machine

/-- What keeps the parameters and writes one cell of the address space at most keeps the invariant. -/
theorem Reaches.inv {s t : State} (h : Reaches s t) (hs : s.Inv) : t.Inv := by
  obtain ⟨hparams, hmem⟩ := h
  obtain ⟨hwf, hbounds⟩ := hs
  refine ⟨?_, hparams ▸ hbounds⟩
  obtain hsame | ⟨a, v, ha, hwrite⟩ := hmem
  · exact hsame ▸ hwf
  · exact hwrite ▸ Memory.write_wf v ha hwf

/-- Settles O17: a step writes one cell of the address space at most, which keeps the canonical form. -/
theorem stepKeepsTheInvariant : Obligations.StepKeepsTheInvariant :=
  fun _ _ hs h => (step_reaches h).inv hs

/-- R44: an executor built from parameters within R9 meets the invariant. -/
theorem State.construct_inv {p : Params} (hp : p.wf) : (State.construct p).Inv := ⟨Memory.wf_nil, hp⟩

/-- Settles O18: the memory after reset is empty, and the empty program is within R9. -/
theorem resetMeetsTheInvariant : Obligations.ResetMeetsTheInvariant :=
  ⟨State.construct_inv (p := Params.unloaded) (by decide), fun _ => State.construct_inv⟩

/-- Settles O19: construction establishes the invariant, `RESET` constructs again from the same parameters, and a step
keeps it. -/
theorem everyReachableStateMeetsTheInvariant : Obligations.EveryReachableStateMeetsTheInvariant := by
  intro p cs hp
  refine runCommands_keeps (P := State.Inv) ?reset ?next cs (State.construct_inv hp)
  case reset => exact fun s ⟨_, hbounds⟩ => State.construct_inv hbounds
  case next => exact fun s t h hs => stepKeepsTheInvariant s t hs h

end Sys2Proof.Machine
end

section
/-! The program counter (R24, R25): where it cannot wrap. -/

namespace Sys2Proof.Machine

/-- R25: below the greatest word, `PC + 1` is the integer sum. -/
theorem toInt_add_one {x : Word} (h : x.toInt < 32767) : (x + 1).toInt = x.toInt + 1 := by
  obtain ⟨hlow, _⟩ := toInt_inI16 x
  rw [BitVec.toInt_add, show (1 : Word).toInt = 1 from rfl]
  exact Int.bmod_eq_of_le (by omega) (by omega)

/-- R93: a label's target is the low 15 bits of its entry. -/
theorem labelTarget_toNat (e : Word) : (labelTarget e).toNat = e.toNat % 32768 := by
  have : e.toNat % 32768 < 32768 := Nat.mod_lt _ (by decide)
  simp only [labelTarget, BitVec.truncate_eq_setWidth, BitVec.toNat_setWidth, BitVec.extractLsb'_toNat, Nat.shiftRight_zero]
  omega

/-- Settles O20: a ROM of R9 ends at index 32766, and 15 bits leave the sign bit clear. -/
theorem pcNeverWraps : Obligations.PcNeverWraps := by
  refine ⟨fun s w hs hw => ?_, fun e => ?_⟩
  · obtain ⟨_, (hrom : s.params.rom.length ≤ 32767), _⟩ := hs
    obtain ⟨_, hlt, _⟩ := fetch_some hw
    have hbelow : s.pc.toInt < 32767 := by omega
    rw [toInt_add_one hbelow]
    exact ⟨rfl, by omega⟩
  · have hlow : e.toNat % 32768 < 32768 := Nat.mod_lt _ (by decide)
    rw [BitVec.toInt_eq_toNat_of_lt (by rw [labelTarget_toNat]; omega), labelTarget_toNat]

end Sys2Proof.Machine
end

section
/-! The snapshot (R20, R40): the 256 cells determine a memory in canonical form, and the snapshot the state. -/

namespace Sys2Proof.Machine

/-- An address below every listed one reads as unlisted. -/
theorem Memory.read_of_lt {m : Memory} {a : Nat} (h : ∀ c ∈ m, a < c.1) : Memory.read m a = unlistedCell := by
  induction m with
  | nil => rfl
  | cons d m ih =>
    obtain ⟨b, w⟩ := d
    have hab : a ≠ b := (h (b, w) (by simp)).ne
    rw [Memory.read, if_neg hab]
    exact ih fun c hc => h c (by simp [hc])

/-- A canonical memory lists exactly the cells of the address space that do not read as unlisted. -/
theorem Memory.mem_iff_read {m : Memory} (h : Memory.wf m) (a : Nat) (v : Word) :
    (a, v) ∈ m ↔ a < memCells ∧ v ≠ unlistedCell ∧ Memory.read m a = v := by
  induction m with
  | nil => simp [Memory.read, eq_comm]
  | cons d m ih =>
    obtain ⟨b, w⟩ := d
    obtain ⟨hlt, hb, hw, hm⟩ := Memory.wf_cons.1 h
    rw [List.mem_cons, ih hm, Memory.read, Prod.mk.injEq]
    by_cases hab : a = b
    · subst hab
      rw [if_pos rfl, Memory.read_of_lt hlt]
      grind
    · simp [hab]

/-- The reads of the 256 cells determine a memory in canonical form. -/
theorem Memory.eq_of_read_eq {m m' : Memory} (h : Memory.wf m) (h' : Memory.wf m')
    (hread : ∀ a, a < memCells → Memory.read m a = Memory.read m' a) : m = m' := by
  refine List.Pairwise.eq_of_mem_iff (r := InvImage (· < ·) Prod.fst) h.1 h'.1 fun ⟨a, v⟩ => ?_
  rw [Memory.mem_iff_read h, Memory.mem_iff_read h']
  exact and_congr_right fun ha => by rw [hread a ha]

/-- Settles O23: every field but the memory is in the snapshot as it is, and the cells determine the memory. -/
theorem snapshotDeterminesTheState : Obligations.SnapshotDeterminesTheState := by
  intro s t hs ht hparams hsnap
  obtain ⟨hwf, _⟩ := hs
  obtain ⟨hwf', _⟩ := ht
  obtain ⟨hregs, hpc, hsp, hzf, hsf, hcells, hout, hhalted⟩ := Snapshot.mk.inj hsnap
  have hmem : s.mem = t.mem := Memory.eq_of_read_eq hwf hwf' fun a ha =>
    List.map_inj_left.1 hcells a (List.mem_range.2 ha)
  exact (State.mk.injEq ..).mpr ⟨hregs, BitVec.eq_of_toInt_eq hpc, Fin.ext hsp, hzf, hsf, hhalted, hmem, hout, hparams⟩

end Sys2Proof.Machine
end

section
/-! What an instruction that completes does to the flags, `halted` and the log (R29, R34, R36), said once. -/

namespace Sys2Proof.Machine

/-- R29 to R31: a flag-affecting instruction that completes takes both flags from one result, advances `PC` and keeps the
control fields. -/
theorem exec_next_of_affectsFlags {i : Instr} {s t : State} (hi : affectsFlags i = true) (h : exec i s = .next t) :
    t.pc = s.pc + 1 ∧ SameControl s t ∧ ∃ r : Int, t.zf = decide (r = 0) ∧ t.sf = decide (r < 0) := by
  have stored : ∀ loc r, t = ((s.store loc (tc16 (clamp r))).setFlags r).advance →
      t.pc = s.pc + 1 ∧ SameControl s t ∧ ∃ r : Int, t.zf = decide (r = 0) ∧ t.sf = decide (r < 0) := by
    rintro loc r rfl
    exact ⟨by simp [State.nextPc], by simp [SameControl], r, rfl, rfl⟩
  cases i with
  | add | sub | mol | div | and | or =>
    obtain ⟨_, _, loc, _, _, r, _, _, _, _, _, ht⟩ := binary_next h
    exact stored loc r ht
  | inc | dec | not =>
    obtain ⟨_, loc, _, r, _, _, _, _, ht⟩ := unary_next h
    exact stored loc r ht
  | cmp =>
    obtain ⟨_, _, x, y, _, _, _, rfl⟩ := cmp_next h
    exact ⟨rfl, ⟨rfl, rfl, rfl, rfl⟩, x.toInt - y.toInt, rfl, rfl⟩
  | mov | push | pop | jmp | jz | jnz | js | call | ret | out | hlt => cases hi

/-- What a completed instruction did to the flags, `halted` and the output log. -/
inductive Effect (i : Instr) (s t : State) : Prop
  /-- R29: one of the ten flag-affecting instructions. -/
  | flagged (hi : affectsFlags i = true) (hhalted : t.halted = s.halted) (hout : t.out = s.out)
  /-- Any other but `OUT` and `HLT`. -/
  | quiet (hflags : SameFlags s t) (hhalted : t.halted = s.halted) (hout : t.out = s.out)
  /-- R200: `OUT`. -/
  | emitted (a : Operand) (line : Nat) (v : Word) (hi : i = .out (.one a) line) (ht : t = (s.emit v).advance)
  /-- R202: `HLT`. -/
  | stopped (line : Nat) (hi : i = .hlt .zero line) (ht : t = { s with halted := true })

/-- R182 to R186: a conditional jump has no other effect than on `PC`. -/
theorem jumpIf_quiet {taken : Bool} {ops : Operands} {line : Nat} {s t : State} (i : Instr)
    (h : commit line (withOne ops (jumpIf taken s)) = .next t) : Effect i s t := by
  obtain ⟨_, _, ⟨_, _, _, rfl⟩ | ⟨_, rfl⟩⟩ := jumpIf_next h <;> exact .quiet ⟨rfl, rfl⟩ rfl rfl

/-- Every completed instruction has one of the four effects. -/
theorem exec_effect {i : Instr} {s t : State} (h : exec i s = .next t) : Effect i s t := by
  cases i with
  | add | sub | mol | div | inc | dec | and | or | not | cmp =>
    obtain ⟨_, ⟨_, hhalted, hout, _⟩, _⟩ := exec_next_of_affectsFlags rfl h
    exact .flagged rfl hhalted hout
  | jz | jnz | js => exact jumpIf_quiet _ h
  | mov =>
    obtain ⟨_, _, _, _, _, _, _, rfl⟩ := mov_next h
    exact .quiet (by simp [SameFlags]) (by simp) (by simp)
  | push =>
    obtain ⟨_, _, _, _, _, rfl⟩ := push_next h
    exact .quiet ⟨rfl, rfl⟩ rfl rfl
  | pop =>
    obtain ⟨_, _, _, _, _, rfl⟩ := pop_next h
    exact .quiet (by simp [SameFlags]) (by simp) (by simp)
  | jmp =>
    obtain ⟨_, _, _, _, rfl⟩ := jmp_next h
    exact .quiet ⟨rfl, rfl⟩ rfl rfl
  | call =>
    obtain ⟨_, _, _, _, _, rfl⟩ := call_next h
    exact .quiet ⟨rfl, rfl⟩ rfl rfl
  | ret =>
    obtain ⟨_, _, rfl⟩ := ret_next h
    exact .quiet ⟨rfl, rfl⟩ rfl rfl
  | out _ line =>
    obtain ⟨a, v, rfl, _, ht⟩ := out_next h
    exact .emitted a line v rfl ht
  | hlt _ line =>
    obtain ⟨rfl, ht⟩ := hlt_next h
    exact .stopped line rfl ht

/-- Settles O25: one result is not both zero and negative. -/
theorem flagsNeverBothSet : Obligations.FlagsNeverBothSet := by
  rintro i s t hi h ⟨hz, hn⟩
  obtain ⟨_, _, r, hzf, hsf⟩ := exec_next_of_affectsFlags hi h
  have hzero : r = 0 := of_decide_eq_true (hzf ▸ hz)
  have hneg : r < 0 := of_decide_eq_true (hsf ▸ hn)
  omega

/-- R29: the other eleven instructions leave both flags. -/
theorem exec_sameFlags {i : Instr} {s t : State} (hi : affectsFlags i = false) (h : exec i s = .next t) :
    SameFlags s t := by
  obtain hi' | hflags | ⟨_, _, _, _, rfl⟩ | ⟨_, _, rfl⟩ := exec_effect h
  · simp [hi] at hi'
  · exact hflags
  · exact ⟨rfl, rfl⟩
  · exact ⟨rfl, rfl⟩

/-- R34: an instruction that completes leaves `halted`, or is an `HLT` with no operands. -/
theorem exec_halted {i : Instr} {s t : State} (h : exec i s = .next t) :
    t.halted = s.halted ∨ ∃ line, i = .hlt .zero line := by
  obtain ⟨_, hhalted, _⟩ | ⟨_, hhalted, _⟩ | ⟨_, _, _, _, rfl⟩ | ⟨line, hi, _⟩ := exec_effect h
  · exact .inl hhalted
  · exact .inl hhalted
  · exact .inl rfl
  · exact .inr ⟨line, hi⟩

/-- R36: an instruction that completes leaves the log, or is an `OUT` of one operand that appends one entry. -/
theorem exec_out {i : Instr} {s t : State} (h : exec i s = .next t) :
    t.out = s.out ∨ ∃ a line v, i = .out (.one a) line ∧ t.out = s.out ++ [v] := by
  obtain ⟨_, _, hout⟩ | ⟨_, _, hout⟩ | ⟨a, line, v, hi, rfl⟩ | ⟨_, _, rfl⟩ := exec_effect h
  · exact .inl hout
  · exact .inl hout
  · exact .inr ⟨a, line, v, hi, rfl⟩
  · exact .inl rfl

/-- R36, R43: a step that completes leaves the log, or ran an `OUT` of one operand that appends one entry. -/
theorem step_out {s t : State} (h : step s = .next t) :
    t.out = s.out ∨ ∃ w a line v, s.halted = false ∧ fetch s = some w ∧ decode w = .ok (.out (.one a) line) ∧
      t.out = s.out ++ [v] := by
  obtain ⟨_, rfl⟩ | ⟨hrun, w, i, hw, hdec, hexec⟩ := step_next h
  · exact .inl rfl
  · obtain hout | ⟨a, line, v, rfl, hout⟩ := exec_out hexec
    · exact .inl hout
    · exact .inr ⟨w, a, line, v, hrun, hw, hdec, hout⟩

end Sys2Proof.Machine
end

section
/-! The command STEP by the outcome of its step (R41, R121, R225), and what `halted`, `PC` and the output port show. -/

namespace Sys2Proof.Machine

theorem command_step_of_next {s t : State} (h : step s = .next t) :
    command .step s = (t, ⟨none, emitted s t⟩) := by simp [command, h]

theorem command_step_of_fault {s : State} {f : Fault} (h : step s = .fault f) :
    command .step s = (s, ⟨some f, none⟩) := by simp [command, h]

theorem command_step_of_refused {s : State} {x : Refusal} (h : step s = .refused x) :
    command .step s = (s, .empty) := by simp [command, h]

/-- R43: the value shown is the one appended. -/
theorem emitted_of_append {s t : State} {v : Word} (h : t.out = s.out ++ [v]) : emitted s t = some v := by
  simp [emitted, h]

/-- R43: no value is shown where the log did not grow. -/
theorem emitted_of_same {s t : State} (h : t.out = s.out) : emitted s t = none := by simp [emitted, h]

/-- R121: a halted executor answers `STEP` with nothing changed and no fault. -/
theorem command_step_of_halted {s : State} (h : s.halted = true) : command .step s = (s, .empty) := by
  have hstep : step s = .next s := by simp [step, h]
  rw [command_step_of_next hstep, emitted_of_same rfl]
  rfl

/-- R24: every instruction that completes leaves `PC` where the rule says. -/
theorem exec_pcAfter {i : Instr} {s t : State} (h : exec i s = .next t) : Claims.PcAfter i s t := by
  cases i with
  | add | sub | mol | div | inc | dec | and | or | not | cmp =>
    obtain ⟨hpc, _⟩ := exec_next_of_affectsFlags rfl h
    exact hpc
  | mov =>
    obtain ⟨_, _, _, _, _, _, _, rfl⟩ := mov_next h
    simp [Claims.PcAfter, State.nextPc]
  | push =>
    obtain ⟨_, _, _, _, _, rfl⟩ := push_next h
    rfl
  | pop =>
    obtain ⟨_, _, _, _, _, rfl⟩ := pop_next h
    simp [Claims.PcAfter, State.nextPc]
  | jmp =>
    obtain ⟨a, x, hops, hx, rfl⟩ := jmp_next h
    exact ⟨a, hops, hx⟩
  | jz =>
    obtain ⟨a, hops, ⟨hz, x, hx, rfl⟩ | ⟨hz, rfl⟩⟩ := jumpIf_next h
    · simp [Claims.PcAfter, hz, hops, hx]
    · simp [Claims.PcAfter, hz, State.nextPc]
  | jnz =>
    obtain ⟨a, hops, ⟨hz, x, hx, rfl⟩ | ⟨hz, rfl⟩⟩ := jumpIf_next h
    · have hz : s.zf = false := by simpa using hz
      simp [Claims.PcAfter, hz, hops, hx]
    · have hz : s.zf = true := by simpa using hz
      simp [Claims.PcAfter, hz, State.nextPc]
  | js =>
    obtain ⟨a, hops, ⟨hn, x, hx, rfl⟩ | ⟨hn, rfl⟩⟩ := jumpIf_next h
    · simp [Claims.PcAfter, hn, hops, hx]
    · simp [Claims.PcAfter, hn, State.nextPc]
  | call =>
    obtain ⟨a, x, hops, hx, _, rfl⟩ := call_next h
    exact ⟨a, hops, hx⟩
  | ret =>
    obtain ⟨_, _, rfl⟩ := ret_next h
    rfl
  | out =>
    obtain ⟨_, _, _, _, rfl⟩ := out_next h
    rfl
  | hlt =>
    obtain ⟨_, rfl⟩ := hlt_next h
    rfl

/-- Settles O21: each instruction by what it did when it completed; a fault and a halted step change no state. -/
theorem pcAfterEachStep : Obligations.PcAfterEachStep :=
  ⟨fun _ _ _ => exec_pcAfter, fun _ _ h => by rw [command_step_of_fault h], fun _ h => by rw [command_step_of_halted h]⟩

/-- Settles O27: of the instructions only `HLT` changes `halted`, and a step that was not halted ran one. -/
theorem onlyHltHalts : Obligations.OnlyHltHalts := by
  refine ⟨fun _ _ => rfl, State.construct_halted, fun _ => ⟨rfl, rfl, command_step_of_halted⟩, fun s t h ht => ?_⟩
  obtain ⟨hhalted, _⟩ | ⟨_, w, i, hw, hdec, hexec⟩ := step_next h
  · exact .inl hhalted
  · obtain hsame | ⟨line, rfl⟩ := exec_halted hexec
    · exact .inl (hsame ▸ ht)
    · exact .inr ⟨w, line, hw, hdec⟩

/-- Settles O29: the port shows what the log grew by, and only an `OUT` makes it grow. -/
theorem outPortShowsTheAppendedValue : Obligations.OutPortShowsTheAppendedValue := by
  refine fun s => ⟨fun v => ⟨fun h => ?_, fun ⟨t, _, _, _, _, _, _, hstep, hout⟩ => ?_⟩, rfl⟩
  · cases hstep : step s with
    | next t =>
      rw [command_step_of_next hstep] at h
      obtain hsame | ⟨w, a, line, v', hrun, hw, hdec, hout⟩ := step_out hstep
      · simp [emitted_of_same hsame] at h
      · obtain rfl : v' = v := by simpa [emitted_of_append hout] using h
        exact ⟨t, w, a, line, hrun, hw, hdec, rfl, hout⟩
    | fault f => simp [command_step_of_fault hstep] at h
    | refused x => simp [command_step_of_refused hstep, Response.empty] at h
  · rw [command_step_of_next hstep]
    exact emitted_of_append hout

end Sys2Proof.Machine
end

section
/-! Changes of the state that instructions do not look at: the flags (R29), `SP` (R26), the entries already in the log
(R36). -/

namespace Sys2Proof.Machine

open Claims

/-- R202: `HLT` passes through a change that setting `halted` keeps. -/
theorem hlt_blind {f : State → State} (hh : ∀ s, { f s with halted := true } = f { s with halted := true })
    (ops : Operands) (line : Nat) (s : State) :
    exec (.hlt ops line) (f s) = mapNext f (exec (.hlt ops line) s) :=
  commit_map (by rw [withNone_map, hh, Except.map])

/-- A blind change that keeps `SP` and commutes with moving `SP` and writing the memory passes through the stack
operations. -/
theorem BlindToStack.of_blind {f : State → State} (hf : Blind f) (hsp : ∀ s, (f s).sp = s.sp)
    (hmove : ∀ s k m, { f s with sp := k, mem := m } = f { s with sp := k, mem := m }) : BlindToStack f where
  toBlind := hf
  push s v := by
    by_cases h : s.sp.val ≤ 0
    · simp [State.push, hsp, h, Except.map]
    · simp [State.push, hsp, h, Except.map, hf.mem, hmove]
  pop s := by
    by_cases h : s.sp.val ≥ 256
    · simp [State.pop, hsp, h, Except.map]
    · have hmoved : ∀ k, { f s with sp := k } = f { s with sp := k } := fun k => by
        rw [← hmove s k s.mem, ← hf.mem s]
      simp [State.pop, hsp, h, Except.map, hf.memRead, hmoved]

/-- A blind change that also keeps both flags and passes through `SetFlags`, `OUT` and `HLT`. -/
structure BlindToResults (f : State → State) : Prop extends Blind f where
  zf : ∀ s, (f s).zf = s.zf
  sf : ∀ s, (f s).sf = s.sf
  setFlags : ∀ s r, (f s).setFlags r = f (s.setFlags r)
  emit : ∀ s v, (f s).emit v = f (s.emit v)
  halt : ∀ s, { f s with halted := true } = f { s with halted := true }

/-- An instruction that does not use the stack does not look at such a change. -/
theorem BlindToResults.exec_of_not_usesStack {f : State → State} (hf : BlindToResults f) {i : Instr}
    (hi : usesStack i = false) (s : State) : exec i (f s) = mapNext f (exec i s) := by
  have jump : ∀ taken ops line, commit line (withOne ops (jumpIf taken (f s))) =
      mapNext f (commit line (withOne ops (jumpIf taken s))) := fun taken ops line => hf.jumpIf taken ops line s
  cases i with
  | mov ops line => exact hf.mov ops line s
  | add ops line | sub ops line | mol ops line | div ops line | and ops line | or ops line =>
    exact hf.binary hf.setFlags _ ops line s
  | inc ops line | dec ops line | not ops line => exact hf.unary hf.setFlags _ ops line s
  | cmp ops line => exact hf.cmp hf.setFlags ops line s
  | jmp ops line => exact hf.jmp ops line s
  | jz ops line => simpa [exec, execJz, hf.zf] using jump s.zf ops line
  | jnz ops line => simpa [exec, execJnz, hf.zf] using jump (!s.zf) ops line
  | js ops line => simpa [exec, execJs, hf.sf] using jump s.sf ops line
  | out ops line => exact hf.out hf.emit ops line s
  | hlt ops line => exact hlt_blind hf.halt ops line s
  | push | pop | call | ret => cases hi

/-- A change that the four stack instructions do not look at either is one that no instruction looks at. -/
theorem BlindToResults.exec_map {f : State → State} (hf : BlindToResults f) (hs : BlindToStack f) (i : Instr) (s : State) :
    exec i (f s) = mapNext f (exec i s) := by
  cases hi : usesStack i with
  | false => exact hf.exec_of_not_usesStack hi s
  | true =>
    cases i with
    | push ops line => exact hs.pushed ops line s
    | pop ops line => exact hs.popped ops line s
    | call ops line => exact hs.call ops line s
    | ret ops line => exact hs.ret ops line s
    | mov | add | sub | mol | div | inc | dec | and | or | not | jmp | jz | jnz | js | cmp | out | hlt => cases hi

/-! ### SP -/

/-- The state with another stack pointer. -/
def State.withSp (k : Fin 257) (s : State) : State := { s with sp := k }

theorem withSp_blindToResults (k : Fin 257) : BlindToResults (State.withSp k) where
  regs _ := rfl
  mem _ := rfl
  params _ := rfl
  pc _ := rfl
  setReg _ r _ := by cases r <;> rfl
  memWrite _ _ _ := rfl
  jump _ _ := rfl
  zf _ := rfl
  sf _ := rfl
  setFlags _ _ := rfl
  emit _ _ := rfl
  halt _ := rfl

/-- Settles O26: a change of `SP` is one that only the stack instructions look at. -/
theorem stackPointerIsUsedOnlyByTheStack : Obligations.StackPointerIsUsedOnlyByTheStack :=
  fun _ s k hi => (withSp_blindToResults k).exec_of_not_usesStack hi s

/-! ### The output log -/

/-- The state with more entries in front of its log. -/
def State.withOlderOut (l : List Word) (s : State) : State := { s with out := l ++ s.out }

theorem withOlderOut_blindToResults (l : List Word) : BlindToResults (State.withOlderOut l) where
  regs _ := rfl
  mem _ := rfl
  params _ := rfl
  pc _ := rfl
  setReg _ r _ := by cases r <;> rfl
  memWrite _ _ _ := rfl
  jump _ _ := rfl
  zf _ := rfl
  sf _ := rfl
  setFlags _ _ := rfl
  emit _ _ := by simp [State.withOlderOut, State.emit]
  halt _ := rfl

theorem withOlderOut_blindToStack (l : List Word) : BlindToStack (State.withOlderOut l) :=
  .of_blind (withOlderOut_blindToResults l).toBlind (fun _ => rfl) fun _ _ _ => rfl

/-- Settles O28: a step appends at most the one entry of an `OUT`, and no instruction looks at the entries in front. -/
theorem outputLogIsAppendOnly : Obligations.OutputLogIsAppendOnly := by
  refine ⟨fun s t h => ?_, fun i s l => (withOlderOut_blindToResults l).exec_map (withOlderOut_blindToStack l) i s⟩
  obtain hsame | ⟨_, _, _, v, _, _, _, hout⟩ := step_out h
  · exact ⟨[], by simp [hsame], by simp⟩
  · exact ⟨[v], hout, by simp⟩

/-! ### The flags -/

/-- The state with each flag changed by a function of that flag. -/
def State.mapFlags (z n : Bool → Bool) (s : State) : State := { s with zf := z s.zf, sf := n s.sf }

theorem mapFlags_blind (z n : Bool → Bool) : Blind (State.mapFlags z n) where
  regs _ := rfl
  mem _ := rfl
  params _ := rfl
  pc _ := rfl
  setReg _ r _ := by cases r <;> rfl
  memWrite _ _ _ := rfl
  jump _ _ := rfl

theorem mapFlags_blindToStack (z n : Bool → Bool) : BlindToStack (State.mapFlags z n) :=
  .of_blind (mapFlags_blind z n) (fun _ => rfl) fun _ _ _ => rfl

section
variable (z n : Bool → Bool)

/-- R31: `SetFlags` overwrites whatever the flags were. -/
theorem mapFlags_setFlags (s : State) (r : Int) : (s.mapFlags z n).setFlags r = s.setFlags r := rfl

/-- The common end of the result instructions forgets the flags it met. -/
theorem writeResult_mapFlags (dest : Operand) (r : Int) (s : State) :
    writeResult dest r (s.mapFlags z n) = writeResult dest r s := by
  rw [writeResult, (mapFlags_blind z n).writeOperand, except_map_map]
  rfl

theorem binary_mapFlags (g : Word → Word → Except FaultTag Int) (s : State) :
    binary g (s.mapFlags z n) = binary g s := by
  funext dest src
  simp only [binary, (mapFlags_blind z n).readOperand, writeResult_mapFlags]

theorem unary_mapFlags (g : Word → Except FaultTag Int) (s : State) :
    unary g (s.mapFlags z n) = unary g s := by
  funext dest
  simp only [unary, (mapFlags_blind z n).readOperand, writeResult_mapFlags]

/-- R29, R31: a flag-affecting instruction neither reads the flags nor leaves anything of them. -/
theorem exec_mapFlags_of_affectsFlags {i : Instr} (hi : affectsFlags i = true) (s : State) :
    exec i (s.mapFlags z n) = exec i s := by
  cases i with
  | add | sub | mol | div | and | or => exact congrArg (fun h => commit _ (withTwo _ h)) (binary_mapFlags z n _ s)
  | inc | dec | not => exact congrArg (fun h => commit _ (withOne _ h)) (unary_mapFlags z n _ s)
  | cmp =>
    simp only [exec, execCmp, (mapFlags_blind z n).readOperand, mapFlags_setFlags]
  | mov | push | pop | jmp | jz | jnz | js | call | ret | out | hlt => cases hi

/-- R29: an instruction that neither writes nor reads the flags carries them along. -/
theorem exec_mapFlags_of_ignoresFlags {i : Instr} (hi : affectsFlags i = false) (hr : readsFlags i = false) (s : State) :
    exec i (s.mapFlags z n) = mapNext (State.mapFlags z n) (exec i s) := by
  have hf := mapFlags_blindToStack z n
  cases i with
  | mov ops line => exact hf.mov ops line s
  | push ops line => exact hf.pushed ops line s
  | pop ops line => exact hf.popped ops line s
  | jmp ops line => exact hf.jmp ops line s
  | call ops line => exact hf.call ops line s
  | ret ops line => exact hf.ret ops line s
  | out ops line => exact hf.out (fun _ _ => rfl) ops line s
  | hlt ops line => exact hlt_blind (fun _ => rfl) ops line s
  | jz | jnz | js => cases hr
  | add | sub | mol | div | inc | dec | and | or | not | cmp => cases hi

end

/-- An outcome mapped by the identity. -/
theorem mapNext_id (o : StepOutcome) : mapNext (fun t => t) o = o := by cases o <;> rfl

/-- Settles O24: the ten overwrite the flags, the eight others that read none carry them along, and each conditional jump
reads one flag and carries the other along. -/
theorem flagsAreTouchedOnlyWhereTheRuleSays : Obligations.FlagsAreTouchedOnlyWhereTheRuleSays := by
  refine ⟨fun _ _ _ => exec_sameFlags, fun i s z f hr => ?ignored, fun ops line s f => ⟨?jz, ?jnz⟩,
    fun ops line s z => ?js⟩
  case ignored =>
    cases hi : affectsFlags i with
    | true => exact (exec_mapFlags_of_affectsFlags (fun _ => z) (fun _ => f) hi s).trans (mapNext_id _).symm
    | false => exact exec_mapFlags_of_ignoresFlags (fun _ => z) (fun _ => f) hi hr s
  case jz => exact (mapFlags_blind id fun _ => f).jumpIf s.zf ops line s
  case jnz => exact (mapFlags_blind id fun _ => f).jumpIf (!s.zf) ops line s
  case js => exact (mapFlags_blind (fun _ => z) id).jumpIf s.sf ops line s

end Sys2Proof.Machine
end

section
/-! The clamp (R60, R61) and the quotients it meets: the floor by its order with the integers, and the one quotient of two
words outside `I16`. -/

namespace Sys2Proof.Machine

/-- R60: `clamp` changes exactly what is outside `I16`. -/
theorem clamp_eq_self_iff {v : Int} : clamp v = v ↔ InI16 v :=
  ⟨fun h => h ▸ clamp_inI16 v, clamp_of_inI16⟩

/-- R60: below `I16` `clamp` answers the least value. -/
theorem clamp_of_lt {v : Int} (h : v < -32768) : clamp v = -32768 := by rw [clamp, if_pos h]

/-- R60: above `I16` `clamp` answers the greatest value. -/
theorem clamp_of_gt {v : Int} (h : v > 32767) : clamp v = 32767 := by
  rw [clamp, if_neg (by omega), if_pos h]

/-- R60: zero, negatives and positives stay so. -/
theorem clamp_sign (v : Int) : (clamp v = 0 ↔ v = 0) ∧ (clamp v < 0 ↔ v < 0) ∧ (0 < clamp v ↔ 0 < v) := by
  by_cases hlow : v < -32768
  · rw [clamp_of_lt hlow]
    omega
  · by_cases hhigh : v > 32767
    · rw [clamp_of_gt hhigh]
      omega
    · simp [clamp_of_inI16 (show InI16 v by omega)]

/-- R60, R66: a write that succeeds leaves its operand reading as the word of the clamped value. -/
theorem readOperand_of_writeOperand {op : Operand} {v : Int} {s t : State} (h : writeOperand op v s = .ok t) :
    readOperand op t = .ok (tc16 (clamp v)) := by
  obtain ⟨loc, hloc, rfl⟩ := writeOperand_ok.1 h
  exact readOperand_after_store hloc (fun _ => rfl) fun _ => rfl

/-- R158: the upper test passes exactly the results up to the bound. -/
theorem checkUpper_ok {r r' : Int} : checkUpper r = .ok r' ↔ r ≤ 32767 ∧ r' = r := by
  by_cases h : r > 32767
  · simp [checkUpper, h]
  · simp [checkUpper, h, show r ≤ 32767 by omega, eq_comm]

/-- R160: the lower test passes exactly the results down to the bound. -/
theorem checkLower_ok {r r' : Int} : checkLower r = .ok r' ↔ -32768 ≤ r ∧ r' = r := by
  by_cases h : r < -32768
  · simp [checkLower, h]
  · simp [checkLower, h, show -32768 ≤ r by omega, eq_comm]

/-- R15: the floor of a quotient by a positive divisor is the greatest integer whose product is not above the dividend. -/
theorem le_fdiv_iff_of_pos {k a b : Int} (hb : 0 < b) : k ≤ fdiv a b ↔ k * b ≤ a := by
  rw [fdiv, Int.fdiv_eq_ediv_of_nonneg a hb.le, Int.le_ediv_iff_mul_le hb]

/-- R15: for a negative divisor, likewise, with the order of the products turned round. -/
theorem le_fdiv_iff_of_neg {k a b : Int} (hb : b < 0) : k ≤ fdiv a b ↔ a ≤ k * b := by
  have hneg : fdiv a b = fdiv (-a) (-b) := (Int.neg_fdiv_neg a b).symm
  rw [hneg, le_fdiv_iff_of_pos (Int.neg_pos.2 hb), Int.mul_neg, Int.neg_le_neg_iff]

/-- R130: no quotient of two words is below `I16`. -/
theorem neg_32768_le_fdiv (d : Word) {v : Word} (hv : v.toInt ≠ 0) : -32768 ≤ fdiv d.toInt v.toInt := by
  obtain ⟨hlow, hhigh⟩ := toInt_inI16 d
  rcases Int.lt_or_gt_of_ne hv with hneg | hpos
  · rw [le_fdiv_iff_of_neg hneg]
    omega
  · rw [le_fdiv_iff_of_pos hpos]
    omega

/-- R61: the one quotient of two words above `I16`. -/
theorem le_32768_fdiv_iff (d : Word) {v : Word} (hv : v.toInt ≠ 0) :
    32768 ≤ fdiv d.toInt v.toInt ↔ d.toInt = -32768 ∧ v.toInt = -1 := by
  obtain ⟨hlow, hhigh⟩ := toInt_inI16 d
  rcases Int.lt_or_gt_of_ne hv with hneg | hpos
  · rw [le_fdiv_iff_of_neg hneg]
    omega
  · rw [le_fdiv_iff_of_pos hpos]
    omega

/-- R61: `clamp` changes a quotient of two words only where it is above `I16`, at −32768 by −1. -/
theorem clamp_fdiv_ne_iff (d : Word) {v : Word} (hv : v.toInt ≠ 0) :
    clamp (fdiv d.toInt v.toInt) ≠ fdiv d.toInt v.toInt ↔ d.toInt = -32768 ∧ v.toInt = -1 := by
  have hlow := neg_32768_le_fdiv d hv
  rw [← le_32768_fdiv_iff d hv, Ne, clamp_eq_self_iff]
  omega

/-- R60: `clamp` is the identity on the value of a word. -/
theorem clamp_toInt (w : Word) : clamp w.toInt = w.toInt := clamp_of_inI16 (toInt_inI16 w)

/-- Settles O34: the quotient by its two bounds, every other value because its test or its 16 bits keep it in `I16`. -/
theorem onlyOneQuotientIsClamped : Obligations.OnlyOneQuotientIsClamped := by
  refine ⟨fun d v hv => clamp_fdiv_ne_iff d hv, by decide, by decide, clamp_toInt, fun r r' h => ?overflow,
    fun d r h => ?upper, fun d r h => ?lower, fun _ _ => ⟨clamp_toInt _, clamp_toInt _, clamp_toInt _⟩⟩
  case overflow =>
    obtain ⟨hr, rfl⟩ := checkOverflow_ok.1 h
    exact clamp_of_inI16 hr
  case upper =>
    obtain ⟨hle, rfl⟩ := checkUpper_ok.1 h
    obtain ⟨hlow, _⟩ := toInt_inI16 d
    exact clamp_of_inI16 (by omega)
  case lower =>
    obtain ⟨hle, rfl⟩ := checkLower_ok.1 h
    obtain ⟨_, hhigh⟩ := toInt_inI16 d
    exact clamp_of_inI16 (by omega)

/-- Settles O30: `clamp` by its three ranges, and a write read back. -/
theorem clampSaturates : Obligations.ClampSaturates := by
  intro v
  obtain ⟨hzero, hneg, hpos⟩ := clamp_sign v
  exact ⟨clamp_of_lt, clamp_of_gt, clamp_of_inI16, hzero, hneg, hpos, fun _ _ _ h =>
    ⟨_, toInt_tc16 (clamp_inI16 v), readOperand_of_writeOperand h⟩⟩

end Sys2Proof.Machine
end

section
/-! The resolver's two operations on an operand that names a cell (R64, R65): the address test, then the cell. -/

namespace Sys2Proof.Machine

/-- R64: a direct operand reads the cell at its checked address. -/
theorem readOperand_dir (a : Nat) (s : State) : readOperand (.dir a) s = (checkAddress a).map s.memRead := rfl

/-- R64: an indirect operand reads the cell at the register's value, checked. -/
theorem readOperand_ind (r : Reg) (s : State) :
    readOperand (.ind r) s = (checkAddress (s.reg r).toInt).map s.memRead := rfl

/-- R65: a direct operand is written at its checked address. -/
theorem writeOperand_dir (a : Nat) (v : Int) (s : State) :
    writeOperand (.dir a) v s = (checkAddress a).map fun n => s.memWrite n (tc16 (clamp v)) := except_map_map

/-- R65: an indirect operand is written at the register's value, checked. -/
theorem writeOperand_ind (r : Reg) (v : Int) (s : State) :
    writeOperand (.ind r) v s = (checkAddress (s.reg r).toInt).map fun n => s.memWrite n (tc16 (clamp v)) := except_map_map

/-- Settles O31: the address test decides the two forms that name a cell; the other four are the definition's cases. -/
theorem readOperandOfEachForm : Obligations.ReadOperandOfEachForm := by
  intro s
  refine ⟨fun _ => rfl, fun _ => rfl, fun a ha => ?dir, fun a ha => ?dirOutside, fun r a hr ha => ?ind,
    fun r hr => ?indOutside, fun _ => rfl, rfl⟩
  case dir => rw [readOperand_dir, checkAddress_of_le ha, Except.map]
  case dirOutside => rw [readOperand_dir, checkAddress_outside (.inr (by omega)), Except.map]
  case ind => rw [readOperand_ind, hr, checkAddress_of_le ha, Except.map]
  case indOutside => rw [readOperand_ind, checkAddress_outside hr, Except.map]

/-- Settles O32: as for reading, an immediate not being a place. -/
theorem writeOperandOfEachForm : Obligations.WriteOperandOfEachForm := by
  intro s v
  refine ⟨fun _ => rfl, fun _ => rfl, fun a ha => ?dir, fun a ha => ?dirOutside, fun r a hr ha => ?ind,
    fun r hr => ?indOutside, fun _ => rfl, rfl⟩
  case dir => rw [writeOperand_dir, checkAddress_of_le ha, Except.map]
  case dirOutside => rw [writeOperand_dir, checkAddress_outside (.inr (by omega)), Except.map]
  case ind => rw [writeOperand_ind, hr, checkAddress_of_le ha, Except.map]
  case indOutside => rw [writeOperand_ind, checkAddress_outside hr, Except.map]

end Sys2Proof.Machine
end

section
/-! The decoder by its three parts (R83 to R92): the opcode map, the operand list, and the fields of an encoded word. -/

namespace Sys2Proof

open Claims

/-! ### The opcode map -/

/-- R90: read from instruction to number and back, the opcode map gives the instruction. -/
theorem instrOfOpc_opcOfInstr (i : Instr) : instrOfOpc (opcOfInstr i) i.operands i.line = some i := by
  cases i <;> rfl

/-- R90: the row of a number carries that number and the operands and line it was given. -/
theorem instrOfOpc_some {opc line : Nat} {ops : Operands} {i : Instr} (h : instrOfOpc opc ops line = some i) :
    opcOfInstr i = opc ∧ i.operands = ops ∧ i.line = line := by
  unfold instrOfOpc at h
  split at h
  case h_22 => cases h
  all_goals
    obtain rfl := Option.some.inj h
    exact ⟨rfl, rfl, rfl⟩

/-- R90, R91: the numbers of the opcode map are 1 to 21. -/
theorem instrOfOpc_isSome_iff (opc : Nat) (ops : Operands) (line : Nat) :
    (∃ i, instrOfOpc opc ops line = some i) ↔ 1 ≤ opc ∧ opc ≤ 21 := by
  constructor
  · rintro ⟨i, hi⟩
    obtain ⟨rfl, _, _⟩ := instrOfOpc_some hi
    cases i <;> simp [opcOfInstr]
  · rintro ⟨hlow, hhigh⟩
    interval_cases opc <;> exact ⟨_, rfl⟩

/-- R90: a word is the instruction that the opcode map gives for its fields. -/
theorem decode_eq_ok_iff {w : RomWord} {i : Instr} :
    decode w = .ok i ↔ instrOfOpc (opcOf w) (operandsOf w) (lineOf w) = some i := by
  cases h : instrOfOpc (opcOf w) (operandsOf w) (lineOf w) <;> simp [decode, h]

/-- R91: a word decodes to an instruction exactly when its `OPC` is in 1..21. -/
theorem decode_isOk_iff (w : RomWord) : (∃ i, decode w = .ok i) ↔ 1 ≤ opcOf w ∧ opcOf w ≤ 21 := by
  simp only [decode_eq_ok_iff, instrOfOpc_isSome_iff]

/-- R91, R123: a word of another `OPC` is rejected with its line. -/
theorem decode_of_unknownOpcode {w : RomWord} (h : ¬(1 ≤ opcOf w ∧ opcOf w ≤ 21)) :
    decode w = .error (.unknownOpcode (opcOf w) (lineOf w)) := by
  have hnone : instrOfOpc (opcOf w) (operandsOf w) (lineOf w) = none :=
    Option.eq_none_iff_forall_ne_some.2 fun i hi => h ((instrOfOpc_isSome_iff ..).1 ⟨i, hi⟩)
  rw [decode, hnone]

/-- R90, R92: words with the same `OPC`, operand list and `LINE` decode alike. -/
theorem decode_congr {w w' : RomWord} (hopc : opcOf w = opcOf w') (hops : operandsOf w = operandsOf w')
    (hline : lineOf w = lineOf w') : decode w = decode w' := by
  rw [decode, hopc, hops, hline, decode]

/-! ### The operand list -/

/-- R84, R88: the operand list of an operand count and two slots. -/
def operandsOfSlots (nops : Nat) (a b : Operand) : Operands :=
  match nops with
  | 0 => .zero
  | 1 => .one a
  | 2 => .two a b
  | _ => .more a b

/-- R84, R88: the operand list of a word is that of its `NOPS` and its slots. -/
theorem operandsOf_eq (w : RomWord) : operandsOf w = operandsOfSlots (nopsOf w) (slotA w) (slotB w) := rfl

/-- R84: the list is as long as the count says. -/
theorem operandsOfSlots_count {nops : Nat} (h : nops < 4) (a b : Operand) : (operandsOfSlots nops a b).count = nops := by
  interval_cases nops <;> rfl

/-- A list of well-formed operands is well formed. -/
theorem operandsOfSlots_wellFormed (nops : Nat) {a b : Operand} (ha : a.wellFormed = true) (hb : b.wellFormed = true) :
    (operandsOfSlots nops a b).wellFormed = true := by
  unfold operandsOfSlots
  split <;> simp [Operands.wellFormed, ha, hb]

/-- R88: the list depends on the slots inside the count alone. -/
theorem operandsOfSlots_congr {nops : Nat} {a a' b b' : Operand} (ha : 1 ≤ nops → a = a') (hb : 2 ≤ nops → b = b') :
    operandsOfSlots nops a b = operandsOfSlots nops a' b' :=
  match nops with
  | 0 => rfl
  | 1 => by rw [ha (by decide)]; rfl
  | _ + 2 => by rw [ha (by omega), hb (by omega)]

/-- R83: `NOPS` is a 2-bit field. -/
theorem nopsOf_lt (w : RomWord) : nopsOf w < 4 := (romField w 57 2).isLt

/-- R83: `LINE` is a 16-bit field. -/
theorem lineOf_le (w : RomWord) : lineOf w ≤ 65535 := Nat.le_of_lt_succ (romField w 0 16).isLt

/-- R87: a slot's direct address or label id is a 16-bit field. -/
theorem operandOfSlot_wellFormed (mode : BitVec 3) (v : Word) : (operandOfSlot mode v).wellFormed = true := by
  have hv : v.toNat ≤ 65535 := Nat.le_of_lt_succ v.isLt
  unfold operandOfSlot
  split <;> simp [Operand.wellFormed, hv]

/-- R87: a register is named by the two low bits of its value field. -/
theorem regOfValue_congr {v v' : Word} (h : v.extractLsb' 0 2 = v'.extractLsb' 0 2) : regOfValue v = regOfValue v' := by
  rw [regOfValue, h, regOfValue]

/-- R92: the decoder reads no other bits of a slot than its mode and the bits that the mode uses. -/
theorem operandOfSlot_eq_of_slotAgrees {m m' : BitVec 3} {v v' : Word} (h : SlotAgrees m v m' v') :
    operandOfSlot m v = operandOfSlot m' v' := by
  obtain ⟨rfl, hbits⟩ := h
  unfold operandOfSlot
  split
  case h_1 hm | h_4 hm => rw [regOfValue_congr (by simpa [hm] using hbits)]
  case h_2 hm | h_3 hm | h_5 hm => rw [show v = v' by simpa [hm] using hbits]
  case h_6 => rfl

/-- Settles O2: the opcode map keeps number, operands and line, and the fields have the widths of R83. -/
theorem decodedInstructionCarriesTheFields : Obligations.DecodedInstructionCarriesTheFields := by
  intro w i h
  obtain ⟨hopc, hops, hline⟩ := instrOfOpc_some (decode_eq_ok_iff.1 h)
  have hwf : (operandsOf w).wellFormed = true :=
    operandsOfSlots_wellFormed _ (operandOfSlot_wellFormed _ _) (operandOfSlot_wellFormed _ _)
  exact ⟨by simp [Instr.wellFormed, hops, hwf, hline, lineOf_le], hopc,
    hops ▸ operandsOfSlots_count (nopsOf_lt w) _ _, hline⟩

/-- Settles O3: `OPC`, the operand list and `LINE` decide the decoder's answer, and ignored bits are in none of them. -/
theorem reservedFieldsAreIgnored : Obligations.ReservedFieldsAreIgnored := by
  refine ⟨fun w w' ⟨hopc, hnops, hline, hA, hB⟩ => decode_congr hopc ?operands hline, fun _ => ⟨rfl, rfl⟩,
    fun w hlow hhigh => (decode_isOk_iff w).2 ⟨hlow, hhigh⟩⟩
  case operands =>
    rw [operandsOf_eq, operandsOf_eq, ← hnops]
    exact operandsOfSlots_congr (fun h => operandOfSlot_eq_of_slotAgrees (hA h))
      fun h => operandOfSlot_eq_of_slotAgrees (hB h)

/-! ### The encoder -/

/-- R83, R87: the fields of a well-formed instruction fit their widths, so each is read back from the packed word. -/
theorem decode_packWord {i : Instr} {nops : Nat} {a b : Operand} (hi : i.operands = operandsOfSlots nops a b)
    (hn : nops < 4) (ha : a.wellFormed = true) (hb : b.wellFormed = true) (hline : i.line < 65536) :
    decode (packWord (opcOfInstr i) nops (modeOf a) (valueOf a) (modeOf b) (valueOf b) i.line) = .ok i := by
  have hfit : FieldsFit (opcOfInstr i) nops (modeOf a) (valueOf a) (modeOf b) (valueOf b) i.line :=
    ⟨opcOfInstr_lt i, hn, modeOf_lt a, valueOf_lt ha, modeOf_lt b, valueOf_lt hb, hline⟩
  rw [decode_eq_ok_iff, opcOf_packWord hfit, lineOf_packWord hfit, operandsOf_eq, nopsOf_packWord hfit,
    slotA_packWord hfit, slotB_packWord hfit, operandOfSlot_of ha, operandOfSlot_of hb, ← hi, instrOfOpc_opcOfInstr]

/-- Settles O1, by the form of the operand list: an unused slot is packed as `BAD` is. -/
theorem decodeOfEncodeIsTheInstruction : Obligations.DecodeOfEncodeIsTheInstruction := by
  intro i h
  obtain ⟨hwf, hle⟩ : i.operands.wellFormed = true ∧ i.line ≤ 65535 := by simpa [Instr.wellFormed] using h
  have hline : i.line < 65536 := Nat.lt_succ_of_le hle
  unfold encode
  cases hi : i.operands with
  | zero => exact decode_packWord (a := .bad) (b := .bad) hi (by decide) rfl rfl hline
  | one a => exact decode_packWord (b := .bad) hi (by decide) (hi ▸ hwf :) rfl hline
  | two a b | more a b =>
    obtain ⟨ha, hb⟩ : a.wellFormed = true ∧ b.wellFormed = true := by simpa [hi, Operands.wellFormed] using hwf
    exact decode_packWord hi (by decide) ha hb hline

/-- Settles O4: five closed evaluations of the decoder. -/
theorem writtenOutWordsDecode : Obligations.WrittenOutWordsDecode :=
  ⟨by decide, by decide, by decide, by decide, by decide⟩

end Sys2Proof
end

section
/-! The loader's words (R80, R82, R101) and label entries (R93, R94), the step on a word that names no instruction (R123),
and the label resolver (R96). -/

namespace Sys2Proof.Machine

/-- R80, R82: the word of an instruction line is the encoding of an instruction with the line's operands. -/
theorem assembleInstr_ok {labels : List (Text × Nat)} {si : SourceInstr} {w : RomWord}
    (h : assembleInstr labels si = .ok w) :
    ∃ ops i, resolveOperands labels si = .ok ops ∧ instrOfOpc si.opc ops si.line = some i ∧ w = encode i := by
  obtain ⟨ops, hops, h⟩ := bind_ok.1 h
  cases hi : instrOfOpc si.opc ops si.line with
  | none => simp [hi] at h
  | some i =>
    rw [hi] at h
    exact ⟨ops, i, hops, hi, (Except.ok.inj h).symm⟩

/-- R85, R107: within the loader's bounds, the word of an instruction line decodes to an instruction. -/
theorem decode_of_assembleInstr {labels : List (Text × Nat)} {si : SourceInstr} {w : RomWord}
    (hlabels : labels.length ≤ 65535) (hline : si.line ≤ 65535) (h : assembleInstr labels si = .ok w) :
    ∃ i, decode w = .ok i := by
  obtain ⟨ops, i, hops, hi, rfl⟩ := assembleInstr_ok h
  obtain ⟨_, rfl, hl⟩ := instrOfOpc_some hi
  have hwf := resolveOperands_wellFormed hlabels hops
  exact ⟨i, decodeOfEncodeIsTheInstruction i (by simp [Instr.wellFormed, hwf, hl, hline])⟩

/-- Settles O54: each word of the ROM comes from a line of the first pass, within the bounds that `assemble` checked. -/
theorem assembledWordsAreInstructions : Obligations.AssembledWordsAreInstructions := by
  intro t rom lt h w hw
  obtain ⟨sc, ⟨hlines, _⟩, _, hlabels, hrom, _⟩ := assemble_ok h
  obtain ⟨_, hfrom⟩ := assembleInstrs_ok hrom
  obtain ⟨si, hsi, hword⟩ := hfrom w hw
  obtain ⟨hline, _⟩ := hlines si hsi
  exact decode_of_assembleInstr hlabels hline hword

/-- R93: the entry of an index that fits 15 bits is valid and has that target. -/
theorem labelEntry_spec {n : Nat} (h : n ≤ 32767) :
    labelValid (labelEntry n) = true ∧ (labelTarget (labelEntry n)).toNat = n := by
  have hval : (labelEntry n).toNat = 32768 + n := by
    rw [labelEntry, BitVec.toNat_ofNat]
    omega
  refine ⟨?_, by rw [labelTarget_toNat, hval]; omega⟩
  rw [labelValid, BitVec.getLsbD, hval, Nat.testBit_eq_decide_div_mod_eq]
  simp only [decide_eq_true_eq]
  omega

/-- Settles O55: a label of the first pass designates an index of the program or its end, and a program of R9 has at most
32767 of them, which 15 bits hold. -/
theorem assembledLabelsDesignateIndexes : Obligations.AssembledLabelsDesignateIndexes := by
  intro t rom lt h
  obtain ⟨sc, ⟨_, htargets⟩, (hinstrs : _ ≤ 32767), (hlabels : _ ≤ 65535), hrom, rfl⟩ := assemble_ok h
  obtain ⟨hlen, _⟩ := assembleInstrs_ok hrom
  refine ⟨fun e he => ?_, by omega, by simpa using hlabels⟩
  obtain ⟨l, hl, rfl⟩ := List.mem_map.1 he
  have hle := htargets l hl
  obtain ⟨hvalid, htarget⟩ := labelEntry_spec (n := l.2) (by omega)
  exact ⟨hvalid, by omega⟩

/-- Settles O8: the decoder rejects the word with its line, and the step raises that. -/
theorem unknownOpcodeFaults : Obligations.UnknownOpcodeFaults := by
  intro s w hrun hw hopc
  simp [FaultsWith, step, hrun, hw, decode_of_unknownOpcode hopc, raise]

/-- R96: a name whose id is in the table is resolved by its entry. -/
theorem lookup_name_of_getElem? {s : State} {k : Nat} {e : Word} (h : s.params.lt[k]? = some e) :
    lookup (.name k) s = if labelValid e then .ok (labelTarget e) else .error .undefinedLabel := by
  simp only [lookup, h]

/-- Settles O33: the table's entry decides a name whose id it has; the rest is undefined. -/
theorem lookupAnswersTheValidEntry : Obligations.LookupAnswersTheValidEntry := by
  refine fun s => ⟨fun k e he hvalid => ?valid, fun k e he hinvalid => ?invalid, fun k hk => ?absent,
    fun op hop => ?noName⟩
  case valid => exact ⟨labelTarget e, by rw [lookup_name_of_getElem? he, labelValid, if_pos hvalid], labelTarget_toNat e⟩
  case invalid => rw [lookup_name_of_getElem? he, labelValid, hinvalid, if_neg Bool.false_ne_true]
  case absent => simp only [lookup, List.getElem?_eq_none hk]
  case noName =>
    cases op with
    | name k => exact absurd rfl (hop k)
    | reg | imm | dir | ind | bad => rfl

end Sys2Proof.Machine
end

section
/-! A step by its branches (R120 to R123, R129): halted, nothing fetched, a word that names no instruction, an instruction;
and the handlers, which test their operand count first (R124) and end in a state or a fault (R125, R126). -/

namespace Sys2Proof.Machine

/-! ### The branches of a step -/

/-- R121: a halted step completes and changes nothing. -/
theorem step_of_halted {s : State} (h : s.halted = true) : step s = .next s := by simp [step, h]

/-- R122: a step that fetches nothing. -/
theorem step_of_fetch_none {s : State} (hrun : s.halted = false) (hw : fetch s = none) :
    step s = raise .executionOutOfBounds 0 := by simp [step, hrun, hw]

/-- R123: a step on a word that names no instruction. -/
theorem step_of_decode_error {s : State} {w : RomWord} {opc line : Nat} (hrun : s.halted = false)
    (hw : fetch s = some w) (hdec : decode w = .error (.unknownOpcode opc line)) :
    step s = raise .unknownInstruction line := by simp [step, hrun, hw, hdec]

/-- R129: a step on a word that decodes is that instruction's execution. -/
theorem step_of_decode_ok {s : State} {w : RomWord} {i : Instr} (hrun : s.halted = false)
    (hw : fetch s = some w) (hdec : decode w = .ok i) : step s = exec i s := by simp [step, hrun, hw, hdec]

/-- R122: outside the ROM nothing is fetched. -/
theorem fetch_outside {s : State} (h : s.pc.toInt < 0 ∨ s.pc.toInt ≥ s.params.rom.length) : fetch s = none := by
  rw [fetch, if_pos h]

/-- Settles O5: inside the ROM the word at `PC` is the one fetched. -/
theorem stepRunsTheDecodedInstruction : Obligations.StepRunsTheDecodedInstruction :=
  fun _ _ _ hrun hlow hhigh hw hdec => step_of_decode_ok hrun (fetch_of_lt hlow hhigh hw) hdec

/-- Settles O7: nothing is fetched outside the ROM, and index 0 is outside the empty one. -/
theorem fetchOutsideTheRomFaults : Obligations.FetchOutsideTheRomFaults := by
  have faults : ∀ s : State, s.halted = false → (s.pc.toInt < 0 ∨ s.pc.toInt ≥ s.params.rom.length) →
      step s = .fault (.runtime .executionOutOfBounds none) :=
    fun s hrun hout => step_of_fetch_none hrun (fetch_outside hout)
  refine ⟨fun s hrun hout => ⟨faults s hrun hout, command_step_of_fault (faults s hrun hout)⟩, fun p hp => ?empty⟩
  case empty => exact faults _ (State.construct_halted p) (.inr (by simp [hp, State.construct]))

/-! ### A command that leaves the state as it was, repeated -/

/-- A command that leaves the state is answered alike however often it is repeated. -/
theorem runCommands_replicate {c : Command} {s : State} {r : Response} (h : command c s = (s, r)) (n : Nat) :
    runCommands (List.replicate n c) s = (s, List.replicate n r) := by
  induction n with
  | zero => rfl
  | succ n ih => simp [List.replicate_succ, runCommands, h, ih]

/-- Settles O6: a halted executor's `STEP` leaves the state, so every further one is answered alike. -/
theorem haltedExecutorDoesNothing : Obligations.HaltedExecutorDoesNothing :=
  fun _ h => ⟨step_of_halted h, runCommands_replicate (command_step_of_halted h)⟩

/-- Settles O12: a faulting `STEP` leaves the state, so every further one meets the same fault. -/
theorem faultIsPureAndRepeats : Obligations.FaultIsPureAndRepeats :=
  fun _ _ h => runCommands_replicate (command_step_of_fault h)

/-! ### No refusal -/

/-- R125, R126: every handler ends by committing its writes or raising. -/
theorem exec_eq_commit (i : Instr) (s : State) : ∃ r, exec i s = commit i.line r := by
  cases i <;> exact ⟨_, rfl⟩

/-- R129: no instruction is refused. -/
theorem exec_ne_refused (i : Instr) (s : State) (x : Refusal) : exec i s ≠ .refused x := by
  obtain ⟨r, hr⟩ := exec_eq_commit i s
  exact hr ▸ commit_ne_refused i.line r x

/-- R129: no step is refused. -/
theorem step_ne_refused (s : State) (x : Refusal) : step s ≠ .refused x := by
  cases hrun : s.halted with
  | true => simp [step_of_halted hrun]
  | false =>
    cases hw : fetch s with
    | none => simp [step_of_fetch_none hrun hw, raise]
    | some w =>
      cases hdec : decode w with
      | error e =>
        obtain ⟨opc, line⟩ := e
        simp [step_of_decode_error hrun hw hdec, raise]
      | ok i => exact step_of_decode_ok hrun hw hdec ▸ exec_ne_refused i s x

/-- R212: what is not refused is a next state, or a fault with its tag and line. -/
theorem next_or_fault_of_ne_refused {o : StepOutcome} (h : ∀ x, o ≠ .refused x) :
    (∃ t, o = .next t) ∨ ∃ tag line, o = .fault (.runtime tag line) := by
  cases o with
  | next t => exact .inl ⟨t, rfl⟩
  | fault f =>
    obtain ⟨tag, line⟩ := f
    exact .inr ⟨tag, line, rfl⟩
  | refused x => exact absurd rfl (h x)

/-- Settles O10: neither a step nor an instruction is refused. -/
theorem stepCompletesOrFaults : Obligations.StepCompletesOrFaults :=
  ⟨fun s => next_or_fault_of_ne_refused (step_ne_refused s),
    fun i s => next_or_fault_of_ne_refused (exec_ne_refused i s)⟩

/-! ### The operand count -/

/-- R124: a handler of no operand on any other list. -/
theorem withNone_of_count_ne {ops : Operands} (hc : ops.count ≠ 0) (h : Except FaultTag State) :
    withNone ops h = .error .operandCountMismatch := by
  cases ops with
  | zero => exact absurd rfl hc
  | one | two | more => rfl

/-- R124: a handler of one operand on any other list. -/
theorem withOne_of_count_ne {ops : Operands} (hc : ops.count ≠ 1) (h : Operand → Except FaultTag State) :
    withOne ops h = .error .operandCountMismatch := by
  cases ops with
  | one => exact absurd rfl hc
  | zero | two | more => rfl

/-- R124: a handler of two operands on any other list. -/
theorem withTwo_of_count_ne {ops : Operands} (hc : ops.count ≠ 2) (h : Operand → Operand → Except FaultTag State) :
    withTwo ops h = .error .operandCountMismatch := by
  cases ops with
  | two => exact absurd rfl hc
  | zero | one | more => rfl

/-- Settles O9: each instruction by the count it expects. -/
theorem everyHandlerChecksTheOperandCount : Obligations.EveryHandlerChecksTheOperandCount := by
  intro i s hc
  cases i with
  | mov | add | sub | mol | div | and | or | cmp => exact congrArg (commit _) (withTwo_of_count_ne hc _)
  | push | pop | inc | dec | not | jmp | jz | jnz | js | call | out =>
    exact congrArg (commit _) (withOne_of_count_ne hc _)
  | ret | hlt => exact congrArg (commit _) (withNone_of_count_ne hc _)

end Sys2Proof.Machine
end

section
/-! The spans of the exact results (R130). -/

namespace Sys2Proof.Machine

/-- R130: a product is least and greatest at corners of the square of its factors, so the four products of a factor's
distances from the ends of `I16` bound it. -/
theorem mul_span {a b : Int} (ha : InI16 a) (hb : InI16 b) : -1073709056 ≤ a * b ∧ a * b ≤ 1073741824 := by
  obtain ⟨halow, hahigh⟩ := ha
  obtain ⟨hblow, hbhigh⟩ := hb
  have hLL : 0 ≤ (a + 32768) * (b + 32768) := mul_nonneg (by omega) (by omega)
  have hHH : 0 ≤ (32767 - a) * (32767 - b) := mul_nonneg (by omega) (by omega)
  have hLH : 0 ≤ (a + 32768) * (32767 - b) := mul_nonneg (by omega) (by omega)
  have hHL : 0 ≤ (32767 - a) * (b + 32768) := mul_nonneg (by omega) (by omega)
  constructor <;> linarith

/-- R130: no quotient of two words is above 32768. -/
theorem fdiv_le_32768 (d : Word) {v : Word} (hv : v.toInt ≠ 0) : fdiv d.toInt v.toInt ≤ 32768 := by
  obtain ⟨hlow, hhigh⟩ := toInt_inI16 d
  have hnot : ¬32769 ≤ fdiv d.toInt v.toInt := by
    rcases Int.lt_or_gt_of_ne hv with hneg | hpos
    · rw [le_fdiv_iff_of_neg hneg]
      omega
    · rw [le_fdiv_iff_of_pos hpos]
      omega
  omega

/-- Settles O35: sums and differences by the ends of `I16`, products and quotients by their spans, bitwise results by
being values of words. -/
theorem exactResultsSpanTheDatapath : Obligations.ExactResultsSpanTheDatapath := by
  intro a b
  have ha := toInt_inI16 a
  have hb := toInt_inI16 b
  exact ⟨by omega, by omega, mul_span ha hb, fun hne => ⟨neg_32768_le_fdiv a hne, fdiv_le_32768 a hne⟩,
    toInt_inI16 _, toInt_inI16 _, toInt_inI16 _⟩

end Sys2Proof.Machine
end

section
/-! What `MOV`, `PUSH` and `POP` answer on the operand list they expect (R140, R142, R144): the fault of the first test that
fails, or the state they leave. -/

namespace Sys2Proof.Machine

open Claims

/-! ### Faults and writes -/

/-- R126: a bind raises what its first part raises, or what its second raises on the first one's value. -/
theorem bind_error {ε α β : Type} {x : Except ε α} {f : α → Except ε β} {e : ε} :
    x >>= f = .error e ↔ x = .error e ∨ ∃ a, x = .ok a ∧ f a = .error e := by
  cases x <;> simp [bind, Except.bind]

/-- R126, R213: a handler that raises is the fault with the instruction's line. -/
theorem faultsWith_of_error {r : Except FaultTag State} {e : FaultTag} (line : Nat) (h : r = .error e) :
    FaultsWith (commit line r) e line := congrArg (commit line) h

/-- R140, R144: the value of a word is stored as that word. -/
theorem writeOperand_toInt {op : Operand} {s : State} {loc : Location} (v : Word) (h : writeTarget op s = .ok loc) :
    writeOperand op v.toInt s = .ok (s.store loc v) :=
  writeOperand_ok.2 ⟨loc, h, by rw [tc16_clamp_toInt]⟩

/-- R65: a state with the registers and cells of one store at the operand's place differs only at that place. -/
theorem sameOutside_of_store {op : Operand} {s t : State} {loc : Location} (v : Word) (h : writeTarget op s = .ok loc)
    (hr : ∀ r, t.reg r = (s.store loc v).reg r) (hm : ∀ a, t.memRead a = (s.store loc v).memRead a) :
    SameOutside op s t := by
  refine ⟨fun r hne => ?reg, fun a hne => ?cell⟩
  case reg =>
    have hloc : loc ≠ .reg r := fun hl => hne (hl ▸ h)
    rw [hr, State.store_reg, if_neg hloc]
  case cell =>
    have hloc : loc ≠ .cell a := fun hl => hne (hl ▸ h)
    rw [hm, State.store_memRead, if_neg hloc]

/-! ### The state with another SP -/

section
variable (k : Fin 257) (s : State)

@[simp] theorem State.withSp_sp : (s.withSp k).sp = k := rfl
@[simp] theorem State.withSp_pc : (s.withSp k).pc = s.pc := rfl
@[simp] theorem State.withSp_zf : (s.withSp k).zf = s.zf := rfl
@[simp] theorem State.withSp_sf : (s.withSp k).sf = s.sf := rfl
@[simp] theorem State.withSp_halted : (s.withSp k).halted = s.halted := rfl
@[simp] theorem State.withSp_out : (s.withSp k).out = s.out := rfl
@[simp] theorem State.withSp_params : (s.withSp k).params = s.params := rfl
@[simp] theorem State.withSp_nextPc : (s.withSp k).nextPc = s.nextPc := rfl
@[simp] theorem State.withSp_reg (r : Reg) : (s.withSp k).reg r = s.reg r := rfl
@[simp] theorem State.withSp_memRead (a : Nat) : (s.withSp k).memRead a = s.memRead a := rfl

end

/-! ### MOV -/

section
variable {s : State} {dest src : Operand} {loc : Location} {v : Word} {e : FaultTag} (line : Nat)

/-- R140: the read is the first test (D9). -/
theorem mov_readFault (h : readOperand src s = .error e) : FaultsWith (exec (.mov (.two dest src) line) s) e line :=
  faultsWith_of_error line (bind_error.2 (.inl h))

/-- R140: the write is the second. -/
theorem mov_writeFault (hv : readOperand src s = .ok v) (h : writeTarget dest s = .error e) :
    FaultsWith (exec (.mov (.two dest src) line) s) e line :=
  faultsWith_of_error line (bind_error.2 (.inr ⟨v, hv, bind_error.2 (.inl (writeOperand_error h))⟩))

/-- R140: both tests passed. -/
theorem mov_completes (hv : readOperand src s = .ok v) (h : writeTarget dest s = .ok loc) :
    exec (.mov (.two dest src) line) s = .next (s.store loc v).advance :=
  commit_next.2 (bind_ok.2 ⟨v, hv, bind_ok.2 ⟨_, writeOperand_toInt v h, rfl⟩⟩)

/-! ### PUSH -/

/-- R142: the read is the first test (D9). -/
theorem push_readFault (h : readOperand src s = .error e) : FaultsWith (exec (.push (.one src) line) s) e line :=
  faultsWith_of_error line (bind_error.2 (.inl h))

/-- R142, R220: the stack is the second. -/
theorem push_overflow (hv : readOperand src s = .ok v) (h : s.sp.val = 0) :
    FaultsWith (exec (.push (.one src) line) s) .stackOverflow line :=
  faultsWith_of_error line (bind_error.2 (.inr ⟨v, hv, bind_error.2 (.inl (State.push_of_zero v h))⟩))

/-- R142, R188: a push that succeeds has pushed its value. -/
theorem pushed_of_push {u : State} (h : s.push v = .ok u) : Pushed s u v := by
  obtain ⟨hs, rfl⟩ := State.push_ok h
  refine ⟨Nat.sub_add_cancel hs, ?top, fun a ha => ?others, fun _ => rfl, ⟨rfl, rfl⟩, rfl, rfl, rfl⟩
  case top => exact (Memory.read_write ..).trans (if_pos rfl)
  case others => exact (Memory.read_write ..).trans (if_neg ha)

/-- What was pushed does not depend on where `PC` goes. -/
theorem pushed_jumpTo {u : State} (x : Word) (h : Pushed s u v) : Pushed s (u.jumpTo x) v := h

/-- R142: both tests passed. -/
theorem push_completes (hv : readOperand src s = .ok v) (hs : 0 < s.sp.val) :
    ∃ t, exec (.push (.one src) line) s = .next t ∧ Pushed s t v ∧ t.pc = s.pc + 1 :=
  have hu := State.push_of_pos v hs
  ⟨_, commit_next.2 (bind_ok.2 ⟨v, hv, bind_ok.2 ⟨_, hu, rfl⟩⟩), pushed_jumpTo _ (pushed_of_push hu), rfl⟩

/-! ### POP -/

/-- R144, R221: the stack is the first test. -/
theorem pop_underflow (h : s.sp.val = 256) : FaultsWith (exec (.pop (.one dest) line) s) .stackUnderflow line :=
  faultsWith_of_error line (bind_error.2 (.inl (State.pop_of_empty h)))

/-- R144: the write is the second; the moved `SP` is one that no operand looks at. -/
theorem pop_writeFault (hs : s.sp.val < 256) (h : writeTarget dest s = .error e) :
    FaultsWith (exec (.pop (.one dest) line) s) e line :=
  have hw := ((withSp_blindToResults ⟨s.sp.val + 1, by omega⟩).writeTarget dest s).trans h
  faultsWith_of_error line (bind_error.2 (.inr ⟨_, State.pop_of_lt hs, bind_error.2 (.inl (writeOperand_error hw))⟩))

/-- R144: both tests passed. -/
theorem pop_completes (hs : s.sp.val < 256) (h : writeTarget dest s = .ok loc) :
    exec (.pop (.one dest) line) s =
      .next ((s.store loc (s.memRead s.sp.val)).withSp ⟨s.sp.val + 1, by omega⟩).advance := by
  have hsp := (withSp_blindToResults ⟨s.sp.val + 1, by omega⟩).toBlind
  rw [← hsp.store]
  exact commit_next.2 (bind_ok.2 ⟨_, State.pop_of_lt hs,
    bind_ok.2 ⟨_, writeOperand_toInt _ ((hsp.writeTarget dest s).trans h), rfl⟩⟩)

end

/-! ### The three rules -/

/-- Settles O37: the two tests in their order, then one store and `PC + 1`. -/
theorem movCopiesOneValue : Obligations.MovCopiesOneValue := by
  refine ⟨fun _ _ => ⟨rfl, rfl, rfl⟩, fun s => ⟨fun ops line => everyHandlerChecksTheOperandCount (.mov ops line) s,
    fun dest src line => ⟨fun _ => mov_readFault line, fun v hv =>
      ⟨fun _ => mov_writeFault line hv, fun loc hloc => ?completes⟩⟩⟩⟩
  refine ⟨_, mov_completes line hv hloc, ?value, ?pc, ?flags, ?outside, ?control⟩
  case value => exact readOperand_after_store hloc (by simp) (by simp)
  case pc => simp [State.nextPc]
  case flags => simp [SameFlags]
  case outside => exact sameOutside_of_store v hloc (by simp) (by simp)
  case control => simp [SameControl]

/-- Settles O38: the two tests in their order, then the push and `PC + 1`. -/
theorem pushStoresBelowTheStackPointer : Obligations.PushStoresBelowTheStackPointer :=
  ⟨fun _ _ => ⟨rfl, rfl, rfl⟩, fun s => ⟨fun ops line => everyHandlerChecksTheOperandCount (.push ops line) s,
    fun _ line => ⟨fun _ => push_readFault line, fun _ hv =>
      ⟨push_overflow line hv, fun hs => push_completes line hv (Nat.pos_of_ne_zero hs)⟩⟩⟩⟩

/-- Settles O39: the two tests in their order, then one store, `SP + 1` and `PC + 1`. -/
theorem popLoadsFromTheStackPointer : Obligations.PopLoadsFromTheStackPointer := by
  refine ⟨fun _ _ => ⟨rfl, rfl, rfl⟩, fun s => ⟨fun ops line => everyHandlerChecksTheOperandCount (.pop ops line) s,
    fun dest line => ⟨pop_underflow line, fun hne => ?nonempty⟩⟩⟩
  have hs : s.sp.val < 256 := by omega
  refine ⟨fun _ => pop_writeFault line hs, fun loc hloc =>
    ⟨_, pop_completes line hs hloc, ?value, rfl, ?pc, ?flags, ?outside, ?halted, ?out, ?params⟩⟩
  case value => exact readOperand_after_store hloc (by simp) (by simp)
  case pc => simp [State.nextPc]
  case flags => simp [SameFlags]
  case outside => exact sameOutside_of_store (s.memRead s.sp.val) hloc (by simp) (by simp)
  case halted | out | params => simp

end Sys2Proof.Machine
end

section
/-! The stack laws (R146): pushes and pops of registers one after another, and `SP` over any run of pushes and pops. -/

namespace Sys2Proof.Machine

open Claims

/-! ### Runs -/

theorem execAll_of_next {i : Instr} {s t : State} (is : List Instr) (h : exec i s = .next t) :
    execAll (i :: is) s = execAll is t := by simp [execAll, h]

/-- A run that completes: its first instruction does, and the rest from there. -/
theorem execAll_cons_next {i : Instr} {is : List Instr} {s t : State} (h : execAll (i :: is) s = .next t) :
    ∃ u, exec i s = .next u ∧ execAll is u = .next t := by
  cases hu : exec i s with
  | next u => exact ⟨u, rfl, execAll_of_next is hu ▸ h⟩
  | fault f => simp [execAll, hu] at h
  | refused x => simp [execAll, hu] at h

/-! ### A register popped -/

/-- R144, of a register: it takes the cell at `SP`, which moves up by one; every other register and every cell as before. -/
structure PoppedInto (r : Reg) (s t : State) : Prop where
  sp : t.sp.val = s.sp.val + 1
  dest : t.reg r = s.memRead s.sp.val
  others : ∀ r', r' ≠ r → t.reg r' = s.reg r'
  mem : SameMemory s t

/-- R144: a register popped where the stack is not empty. -/
theorem pop_reg {s : State} (r : Reg) (line : Nat) (hs : s.sp.val < 256) :
    ∃ t, exec (.pop (.one (.reg r)) line) s = .next t ∧ PoppedInto r s t := by
  refine ⟨_, pop_completes line hs rfl,
    { sp := rfl, dest := ?dest, others := fun r' hr' => ?others, mem := fun a => ?mem }⟩
  case dest => simp [State.store_reg]
  case others => simp [State.store_reg, Ne.symm hr']
  case mem => simp [State.store_memRead]

/-- R146: a register pushed and popped back. -/
theorem push_pop_reg (s : State) (r : Reg) (l l' : Nat) (hs : 0 < s.sp.val) :
    ∃ t, execAll [.push (.one (.reg r)) l, .pop (.one (.reg r)) l'] s = .next t ∧ SameRegs s t ∧ t.sp = s.sp ∧
      t.memRead (s.sp.val - 1) = s.reg r ∧ ∀ a, a ≠ s.sp.val - 1 → t.memRead a = s.memRead a := by
  obtain ⟨u, hu, ⟨hsp, htop, hothers, hregs, _⟩, _⟩ := push_completes (src := .reg r) l rfl hs
  obtain ⟨t, ht, hpop⟩ := pop_reg (s := u) r l' (by omega)
  have hbelow : s.sp.val - 1 = u.sp.val := by omega
  refine ⟨t, by rw [execAll_of_next _ hu, execAll_of_next _ ht, execAll], fun r' => ?regs, ?sp, ?top, fun a ha => ?cells⟩
  case regs =>
    by_cases hr : r' = r
    · rw [hr, hpop.dest, htop]
    · rw [hpop.others r' hr, hregs]
  case sp => exact Fin.ext (hpop.sp.trans hsp)
  case top => rw [hpop.mem, hbelow, htop]
  case cells => rw [hpop.mem, hothers a (hbelow ▸ ha)]

/-- R146: last in, first out. -/
theorem push_push_pop_pop_reg (s : State) (a b c d : Reg) (l : Nat) (hs : 2 ≤ s.sp.val) (hcd : c ≠ d) :
    ∃ t, execAll [.push (.one (.reg a)) l, .push (.one (.reg b)) l, .pop (.one (.reg c)) l, .pop (.one (.reg d)) l] s =
      .next t ∧ t.reg c = s.reg b ∧ t.reg d = s.reg a := by
  obtain ⟨s₁, h₁, ⟨hsp₁, htop₁, _, hregs₁, _⟩, _⟩ := push_completes (s := s) (src := .reg a) l rfl (by omega)
  obtain ⟨s₂, h₂, ⟨hsp₂, htop₂, hothers₂, _⟩, _⟩ := push_completes (s := s₁) (src := .reg b) l rfl (by omega)
  obtain ⟨s₃, h₃, hpop₃⟩ := pop_reg (s := s₂) c l (by omega)
  have hsp₃ : s₃.sp.val = s₁.sp.val := hpop₃.sp.trans hsp₂
  obtain ⟨s₄, h₄, hpop₄⟩ := pop_reg (s := s₃) d l (by omega)
  refine ⟨s₄, ?run, ?first, ?second⟩
  case run =>
    rw [execAll_of_next _ h₁, execAll_of_next _ h₂, execAll_of_next _ h₃, execAll_of_next _ h₄, execAll]
  case first =>
    calc s₄.reg c = s₃.reg c := hpop₄.others c hcd
      _ = s₂.memRead s₂.sp.val := hpop₃.dest
      _ = s₁.reg b := htop₂
      _ = s.reg b := hregs₁ b
  case second =>
    calc s₄.reg d = s₃.memRead s₃.sp.val := hpop₄.dest
      _ = s₂.memRead s₁.sp.val := by rw [hpop₃.mem, hsp₃]
      _ = s₁.memRead s₁.sp.val := hothers₂ _ (by omega)
      _ = s.reg a := htop₁

/-! ### SP over a run -/

section
variable (ops : Operands) (line : Nat) (is : List Instr)

@[simp] theorem pushes_push : pushes (.push ops line :: is) = pushes is + 1 := List.countP_cons_of_pos rfl
@[simp] theorem pops_push : pops (.push ops line :: is) = pops is := rfl
@[simp] theorem pushes_pop : pushes (.pop ops line :: is) = pushes is := rfl
@[simp] theorem pops_pop : pops (.pop ops line :: is) = pops is + 1 := List.countP_cons_of_pos rfl

end

/-- No instruction is both a `PUSH` and a `POP`. -/
theorem pushes_add_pops_le (is : List Instr) : pushes is + pops is ≤ is.length := by
  induction is with
  | nil => exact Nat.le_refl 0
  | cons i is ih =>
    cases i with
    | push ops line =>
      rw [pushes_push, pops_push, List.length_cons]
      omega
    | pop ops line =>
      rw [pushes_pop, pops_pop, List.length_cons]
      omega
    | mov | add | sub | mol | div | inc | dec | and | or | not | jmp | jz | jnz | js | cmp | call | ret | out | hlt =>
      exact Nat.le_succ_of_le ih

theorem push_sp {ops : Operands} {line : Nat} {s t : State} (h : exec (.push ops line) s = .next t) :
    t.sp.val + 1 = s.sp.val := by
  obtain ⟨_, _, _, _, hs, rfl⟩ := push_next h
  exact Nat.sub_add_cancel hs

theorem pop_sp {ops : Operands} {line : Nat} {s t : State} (h : exec (.pop ops line) s = .next t) :
    t.sp.val = s.sp.val + 1 := by
  obtain ⟨_, _, _, _, _, rfl⟩ := pop_next h
  simp

/-- R146: over a run of pushes and pops that completes, each `PUSH` takes `SP` one down and each `POP` one up. -/
theorem execAll_sp {is : List Instr} {s t : State} (hall : pushes is + pops is = is.length)
    (h : execAll is s = .next t) : t.sp.val + pushes is = s.sp.val + pops is := by
  induction is generalizing s with
  | nil =>
    cases h
    rfl
  | cons i is ih =>
    obtain ⟨u, hu, hrun⟩ := execAll_cons_next h
    cases i with
    | push ops line =>
      have hsp := push_sp hu
      rw [pushes_push, pops_push, List.length_cons] at hall
      rw [pushes_push, pops_push]
      have hrest := ih (by omega) hrun
      omega
    | pop ops line =>
      have hsp := pop_sp hu
      rw [pushes_pop, pops_pop, List.length_cons] at hall
      rw [pushes_pop, pops_pop]
      have hrest := ih (by omega) hrun
      omega
    | mov | add | sub | mol | div | inc | dec | and | or | not | jmp | jz | jnz | js | cmp | call | ret | out | hlt =>
      exact absurd hall (Nat.ne_of_lt (Nat.lt_succ_of_le (pushes_add_pops_le is)))

/-- Settles O40: the two laws on registers by the one-instruction rules, the balance by counting. -/
theorem stackLaws : Obligations.StackLaws := by
  refine ⟨push_pop_reg, fun is s t hall hbalanced h => ?balanced, push_push_pop_pop_reg⟩
  have hsp := execAll_sp hall h
  exact Fin.ext (by omega)

end Sys2Proof.Machine
end

section
/-! What the instructions that write a result answer on the operand list they expect (R150 to R174): the fault of the first
read that fails, the fault of the result's own test, or the common end. Then `ADD`, `SUB`, `MOL`, `DIV`, `INC` and `DEC` by
their tests. -/

namespace Sys2Proof.Machine

open Claims

/-! ### The common end -/

section
variable {s : State} {dest src : Operand} {loc : Location} {e : FaultTag} {r : Int} (line : Nat)

/-- R126, R150: the common end raises what the destination's place raises. -/
theorem writeResult_error (h : writeTarget dest s = .error e) : writeResult dest r s = .error e := by
  rw [writeResult, writeOperand_error h, Except.map]

/-- R31, R65, R125: where the destination is a place, the common end leaves the clamped result there, both flags of the
exact one, and `PC + 1`. -/
theorem writeResult_completes (h : writeTarget dest s = .ok loc) :
    CompletesWith (commit line (writeResult dest r s)) s dest (clamp r) r := by
  refine ⟨_, commit_next.2 (writeResult_ok.2 ⟨loc, h, rfl⟩), ?value, ?zf, ?sf, ?pc, ?outside, ?control⟩
  case value => exact readOperand_after_store h (by simp) (by simp)
  case zf | sf => simp
  case pc => simp [State.nextPc]
  case outside => exact sameOutside_of_store (tc16 (clamp r)) h (by simp) (by simp)
  case control => simp [SameControl]

/-- R150: the common end by its one test. -/
theorem writeResult_writesOrFaults (dest : Operand) (r : Int) (s : State) :
    WritesOrFaults (commit line (writeResult dest r s)) s line dest (clamp r) r :=
  ⟨fun _ h => faultsWith_of_error line (writeResult_error h), fun _ h => writeResult_completes line h⟩

/-! ### The reads and the result -/

/-- R74, R150: with both reads passed, a two-operand instruction is its result or fault, and then the common end. -/
theorem binary_of_reads (f : Word → Word → Except FaultTag Int) {d v : Word} (hd : readOperand dest s = .ok d)
    (hv : readOperand src s = .ok v) : binary f s dest src = f d v >>= fun r => writeResult dest r s := by
  simp only [binary, hd, hv, bind, Except.bind]

/-- R158: likewise with the one read. -/
theorem unary_of_read (f : Word → Except FaultTag Int) {d : Word} (hd : readOperand dest s = .ok d) :
    unary f s dest = f d >>= fun r => writeResult dest r s := by
  simp only [unary, hd, bind, Except.bind]

/-- R126: a fault of the result's own test. -/
theorem resultFault {x : Except FaultTag Int} (hx : x = .error e) :
    FaultsWith (commit line (x >>= fun r => writeResult dest r s)) e line :=
  faultsWith_of_error line (bind_error.2 (.inl hx))

/-- R150, R163: a result that passed its test is written, clamped, with its flags. -/
theorem resultWrites {x : Except FaultTag Int} (hx : x = .ok r) :
    WritesOrFaults (commit line (x >>= fun r => writeResult dest r s)) s line dest (clamp r) r := by
  subst hx
  exact writeResult_writesOrFaults line dest r s

/-- R61, R150: a result of `I16` is written as it is. -/
theorem resultWrites_inI16 {x : Except FaultTag Int} (hx : x = .ok r) (hr : InI16 r) :
    WritesOrFaults (commit line (x >>= fun r => writeResult dest r s)) s line dest r r := by
  have hw := resultWrites (dest := dest) (s := s) line hx
  rwa [clamp_of_inI16 hr] at hw

/-- R74: a two-operand instruction meets the faults of its reads in their order; what is left to show is about its result. -/
theorem binary_readsBoth {f : Word → Word → Except FaultTag Int} {k : Word → Word → Prop}
    (h : ∀ d v, (binary f s dest src = f d v >>= fun r => writeResult dest r s) → k d v) :
    ReadsBoth (commit line (binary f s dest src)) s line dest src k :=
  ⟨fun _ he => faultsWith_of_error line (bind_error.2 (.inl he)), fun d hd =>
    ⟨fun _ he => faultsWith_of_error line (bind_error.2 (.inr ⟨d, hd, bind_error.2 (.inl he)⟩)),
      fun v hv => h d v (binary_of_reads f hd hv)⟩⟩

/-- R158, R174: likewise a one-operand instruction. -/
theorem unary_readsOne {f : Word → Except FaultTag Int} {k : Word → Prop}
    (h : ∀ d, (unary f s dest = f d >>= fun r => writeResult dest r s) → k d) :
    ReadsOne (commit line (unary f s dest)) s line dest k :=
  ⟨fun _ he => faultsWith_of_error line (bind_error.2 (.inl he)), fun d hd => h d (unary_of_read f hd)⟩

end

/-! ### ADD, SUB, MOL -/

/-- R150 to R154: the overflow test raises outside `I16`. -/
theorem checkOverflow_outside {r : Int} (h : ¬InI16 r) : checkOverflow r = .error .arithmeticOverflow :=
  if_pos (by omega)

/-- R150, R152, R154: an instruction that makes its exact result with `f` and tests it on both sides. -/
theorem overflowingRule_of_exec {mk : Operands → Nat → Instr} {opc : Nat} {f : Int → Int → Int} (hop : HasOpcode mk opc 2)
    (hexec : ∀ ops line s, exec (mk ops line) s =
      commit line (withTwo ops (binary (fun d v => checkOverflow (f d.toInt v.toInt)) s))) :
    OverflowingRule mk opc f := by
  refine ⟨hop, fun s => ⟨fun ops line hc => ?count, fun dest src line => ?reads⟩⟩ <;> rw [hexec]
  case count => exact faultsWith_of_error line (withTwo_of_count_ne hc _)
  case reads =>
    refine binary_readsBoth line fun d v hres => ?_
    rw [withTwo, hres]
    exact ⟨fun hout => resultFault line (checkOverflow_outside hout),
      fun hin => resultWrites_inI16 line (checkOverflow_ok.2 ⟨hin, rfl⟩) hin⟩

/-- Settles O41: the three instructions are one rule with three results. -/
theorem addSubMolFollowTheirRules : Obligations.AddSubMolFollowTheirRules :=
  ⟨overflowingRule_of_exec (fun _ _ => ⟨rfl, rfl, rfl⟩) fun _ _ _ => rfl,
    overflowingRule_of_exec (fun _ _ => ⟨rfl, rfl, rfl⟩) fun _ _ _ => rfl,
    overflowingRule_of_exec (fun _ _ => ⟨rfl, rfl, rfl⟩) fun _ _ _ => rfl⟩

/-! ### DIV -/

/-- R156: a zero divisor raises. -/
theorem checkedQuotient_zero {d v : Int} (h : v = 0) : checkedQuotient d v = .error .divisionByZero := if_pos h

/-- R156: any other divisor gives the floor. -/
theorem checkedQuotient_of_ne_zero {d v : Int} (h : v ≠ 0) : checkedQuotient d v = .ok (fdiv d v) := if_neg h

/-- R15: the floor by a positive divisor is the integer whose product is at most the dividend and the next one's above. -/
theorem fdiv_bounds_of_pos (a : Int) {b : Int} (hb : 0 < b) : fdiv a b * b ≤ a ∧ a < (fdiv a b + 1) * b :=
  ⟨(le_fdiv_iff_of_pos hb).1 le_rfl, Int.not_le.1 fun h => absurd ((le_fdiv_iff_of_pos hb).2 h) (by omega)⟩

/-- R15: for a negative divisor, likewise, with the order of the products turned round. -/
theorem fdiv_bounds_of_neg (a : Int) {b : Int} (hb : b < 0) : a ≤ fdiv a b * b ∧ (fdiv a b + 1) * b < a :=
  ⟨(le_fdiv_iff_of_neg hb).1 le_rfl, Int.not_le.1 fun h => absurd ((le_fdiv_iff_of_neg hb).2 h) (by omega)⟩

/-- Settles O42: the quotient is the floor on either side of zero, and it has no test after the divisor's. -/
theorem divFloorsTheQuotient : Obligations.DivFloorsTheQuotient := by
  refine ⟨fun _ _ => ⟨rfl, rfl, rfl⟩, fun s => ⟨fun ops line => everyHandlerChecksTheOperandCount (.div ops line) s,
    fun dest src line => binary_readsBoth line fun d v hres => ?_⟩⟩
  have hexec : exec (.div (.two dest src) line) s =
      commit line (checkedQuotient d.toInt v.toInt >>= fun r => writeResult dest r s) := congrArg (commit line) hres
  rw [hexec]
  refine ⟨fun hzero => resultFault line (checkedQuotient_zero hzero), fun hne =>
    ⟨fdiv d.toInt v.toInt, ?floor, resultWrites line (checkedQuotient_of_ne_zero hne)⟩⟩
  rcases Int.lt_or_gt_of_ne hne with hneg | hpos
  · exact .inr ⟨hneg, fdiv_bounds_of_neg _ hneg⟩
  · exact .inl ⟨hpos, fdiv_bounds_of_pos _ hpos⟩

/-! ### INC, DEC -/

/-- R158, R160: an instruction that moves its operand by `delta` and whose test of the result, `check`, raises exactly where
the operand stands at `bound`. -/
theorem boundedRule_of_exec {mk : Operands → Nat → Instr} {opc : Nat} {delta bound : Int} {check : Int → Except FaultTag Int}
    (hop : HasOpcode mk opc 1)
    (hexec : ∀ ops line s, exec (mk ops line) s = commit line (withOne ops (unary (fun d => check (d.toInt + delta)) s)))
    (hat : check (bound + delta) = .error .arithmeticOverflow)
    (hoff : ∀ d : Word, d.toInt ≠ bound → InI16 (d.toInt + delta) ∧ check (d.toInt + delta) = .ok (d.toInt + delta)) :
    BoundedRule mk opc delta bound := by
  refine ⟨hop, fun s => ⟨fun ops line hc => ?count, fun dest line => ?reads⟩⟩ <;> rw [hexec]
  case count => exact faultsWith_of_error line (withOne_of_count_ne hc _)
  case reads =>
    refine unary_readsOne line fun d hres => ?_
    rw [withOne, hres]
    refine ⟨fun hd => resultFault line (hd ▸ hat), fun hd => ?_⟩
    obtain ⟨hin, hok⟩ := hoff d hd
    exact resultWrites_inI16 line hok hin

/-- Settles O43: off its bound the operand moves within `I16`, so the one side that is tested is enough. -/
theorem incDecFaultAtTheirBounds : Obligations.IncDecFaultAtTheirBounds := by
  refine ⟨boundedRule_of_exec (check := checkUpper) (fun _ _ => ⟨rfl, rfl, rfl⟩) (fun _ _ _ => rfl) rfl fun d hd => ?inc,
    boundedRule_of_exec (check := checkLower) (fun _ _ => ⟨rfl, rfl, rfl⟩) (fun _ _ _ => rfl) rfl fun d hd => ?dec⟩
  case inc =>
    have hin : InI16 (d.toInt + 1) := by
      have := toInt_inI16 d
      omega
    exact ⟨hin, checkUpper_ok.2 ⟨hin.2, rfl⟩⟩
  case dec =>
    have hin : InI16 (d.toInt + -1) := by
      have := toInt_inI16 d
      omega
    exact ⟨hin, checkLower_ok.2 ⟨hin.1, rfl⟩⟩

end Sys2Proof.Machine
end

section
/-! The bitwise results as integers (R168): the value of the complement, and the signs and zeros of all three (D17). -/

namespace Sys2Proof.Machine

/-- R168: all 16 bits inverted. -/
theorem bnot_eq (a : Word) : bnot a = -a.toInt - 1 := by
  have hnot : bnot a = (~~~a).toInt := congrArg BitVec.toInt BitVec.xor_allOnes
  rw [hnot, BitVec.toInt_eq_toNat_cond, BitVec.toInt_eq_toNat_cond, BitVec.toNat_not]
  omega

/-- D17: the sign of a word is its top bit. -/
theorem msb_iff_toInt_neg (w : Word) : w.msb = true ↔ w.toInt < 0 := by
  rw [BitVec.msb_eq_toInt, decide_eq_true_iff]

/-- D17: only the word of zeros has the value 0. -/
theorem toInt_eq_zero_iff (w : Word) : w.toInt = 0 ↔ w = 0#16 := BitVec.toInt_inj (y := 0#16)

/-- R170: the top bit of the result is the conjunction of the operands' top bits. -/
theorem band_neg_iff (a b : Word) : band a b < 0 ↔ a.toInt < 0 ∧ b.toInt < 0 := by
  rw [band, ← msb_iff_toInt_neg, BitVec.msb_and, Bool.and_eq_true, msb_iff_toInt_neg, msb_iff_toInt_neg]

/-- R172: the top bit of the result is the disjunction of the operands' top bits. -/
theorem bor_neg_iff (a b : Word) : bor a b < 0 ↔ a.toInt < 0 ∨ b.toInt < 0 := by
  rw [bor, ← msb_iff_toInt_neg, BitVec.msb_or, Bool.or_eq_true, msb_iff_toInt_neg, msb_iff_toInt_neg]

/-- A word is zero exactly when no bit is set, at any position: past its width there is none. -/
theorem word_eq_zero_iff (w : Word) : w = 0#16 ↔ ∀ k, ¬w.getLsbD k = true := by
  refine ⟨fun h k => ?none, fun h => BitVec.eq_of_getLsbD_eq fun k _ => ?zero⟩
  case none => simp [h]
  case zero => rw [Bool.eq_false_of_not_eq_true (h k), BitVec.getLsbD_zero]

/-- R170: the result is zero exactly when no bit is set in both operands. -/
theorem band_eq_zero_iff (a b : Word) : band a b = 0 ↔ ∀ k, ¬(a.getLsbD k = true ∧ b.getLsbD k = true) := by
  simp only [band, toInt_eq_zero_iff, word_eq_zero_iff, BitVec.getLsbD_and, Bool.and_eq_true]

/-- R172: the result is zero only when both operands are. -/
theorem bor_eq_zero_iff (a b : Word) : bor a b = 0 ↔ a.toInt = 0 ∧ b.toInt = 0 := by
  rw [bor, toInt_eq_zero_iff, BitVec.or_eq_zero_iff, toInt_eq_zero_iff, toInt_eq_zero_iff]

/-- Settles O36: signs by the top bit, zeros by the bits, and the complement by its value. -/
theorem bitwiseResultsAndSigns : Obligations.BitwiseResultsAndSigns := by
  intro a b
  have hnot := bnot_eq a
  exact ⟨hnot, toInt_inI16 _, toInt_inI16 _, toInt_inI16 _, band_neg_iff a b, band_eq_zero_iff a b, bor_neg_iff a b,
    bor_eq_zero_iff a b, by omega, by omega⟩

end Sys2Proof.Machine
end

section
/-! `AND`, `OR`, `NOT` by the common end of the instructions that write a result (R170 to R174), and `CMP`, which writes the
flags alone (R176). -/

namespace Sys2Proof.Machine

open Claims

/-! ### AND, OR, NOT -/

/-- R170, R172: an instruction whose result is a word made from two words has no test of it: it is in `I16`. -/
theorem bitwiseRule_of_exec {mk : Operands → Nat → Instr} {opc : Nat} {f : Word → Word → Word} (hop : HasOpcode mk opc 2)
    (hexec : ∀ ops line s, exec (mk ops line) s =
      commit line (withTwo ops (binary (fun d v => .ok (f d v).toInt) s))) :
    BitwiseRule mk opc f := by
  refine ⟨hop, fun s => ⟨fun ops line hc => ?count, fun dest src line => ?reads⟩⟩ <;> rw [hexec]
  case count => exact faultsWith_of_error line (withTwo_of_count_ne hc _)
  case reads =>
    refine binary_readsBoth line fun d v hres => ?_
    rw [withTwo, hres]
    exact resultWrites_inI16 line rfl (toInt_inI16 _)

/-- Settles O44: `AND` and `OR` are one rule with two results; `NOT` is its one-operand form. -/
theorem andOrNotFollowTheirRules : Obligations.AndOrNotFollowTheirRules := by
  refine ⟨bitwiseRule_of_exec (fun _ _ => ⟨rfl, rfl, rfl⟩) fun _ _ _ => rfl,
    bitwiseRule_of_exec (fun _ _ => ⟨rfl, rfl, rfl⟩) fun _ _ _ => rfl, fun _ _ => ⟨rfl, rfl, rfl⟩, fun s =>
      ⟨fun ops line => everyHandlerChecksTheOperandCount (.not ops line) s,
        fun dest line => unary_readsOne line fun d hres => ?not⟩⟩
  have hexec : exec (.not (.one dest) line) s = commit line (.ok (bnot d) >>= fun r => writeResult dest r s) :=
    congrArg (commit line) hres
  rw [hexec, ← bnot_eq]
  exact resultWrites_inI16 line rfl (toInt_inI16 _)

/-! ### CMP -/

/-- R176: the flags of an exact difference are the equality and the order of its terms. -/
theorem State.setFlags_sub (s : State) (a b : Int) :
    s.setFlags (a - b) = { s with zf := decide (a = b), sf := decide (a < b) } := by
  simp only [State.setFlags, sub_eq_zero, sub_neg]

section
variable {s : State} {a b : Operand} {x y : Word} {e : FaultTag} (line : Nat)

/-- R176: the read of the first operand is the first test. -/
theorem cmp_firstReadFault (h : readOperand a s = .error e) : FaultsWith (exec (.cmp (.two a b) line) s) e line :=
  faultsWith_of_error line (bind_error.2 (.inl h))

/-- R176: the read of the second operand is the second. -/
theorem cmp_secondReadFault (hx : readOperand a s = .ok x) (h : readOperand b s = .error e) :
    FaultsWith (exec (.cmp (.two a b) line) s) e line :=
  faultsWith_of_error line (bind_error.2 (.inr ⟨x, hx, bind_error.2 (.inl h)⟩))

/-- R176: both tests passed. -/
theorem cmp_completes (hx : readOperand a s = .ok x) (hy : readOperand b s = .ok y) :
    exec (.cmp (.two a b) line) s = .next (s.setFlags (x.toInt - y.toInt)).advance :=
  commit_next.2 (bind_ok.2 ⟨x, hx, bind_ok.2 ⟨y, hy, rfl⟩⟩)

end

/-- Settles O45: the two reads in their order, then the flags of the exact difference and `PC + 1`. -/
theorem cmpComparesSigned : Obligations.CmpComparesSigned := by
  refine ⟨fun _ _ => ⟨rfl, rfl, rfl⟩, fun s => ⟨fun ops line => everyHandlerChecksTheOperandCount (.cmp ops line) s,
    fun a b line => ⟨fun _ => cmp_firstReadFault line, fun x hx =>
      ⟨fun _ => cmp_secondReadFault line hx, fun y hy => ?completes⟩⟩⟩⟩
  rw [cmp_completes line hx hy, State.setFlags_sub]
  rfl

end Sys2Proof.Machine
end

section
/-! What the control transfers answer on the operand list they expect (R180 to R190): the jump to a label, with and without a
condition, the call and the return. A call and a return together (R192). -/

namespace Sys2Proof.Machine

open Claims

/-! ### Jumps -/

/-- R96, R222: the label resolver raises nothing but `UndefinedLabel`. -/
theorem lookup_error {op : Operand} {s : State} {e : FaultTag} (h : lookup op s = .error e) : e = .undefinedLabel := by
  cases op with
  | name k =>
    cases hentry : s.params.lt[k]? with
    | none =>
      simp only [lookup, hentry] at h
      exact (Except.error.inj h).symm
    | some w =>
      rw [lookup_name_of_getElem? hentry] at h
      split at h
      · cases h
      · exact (Except.error.inj h).symm
  | reg | imm | dir | ind | bad => exact (Except.error.inj h).symm

/-- R180: a handler that resolves its label and goes there. -/
theorem jumpsTo_of_lookup (a : Operand) (line : Nat) (s : State) :
    JumpsTo (commit line ((lookup a s).map s.jumpTo)) s line a := by
  refine ⟨fun e he => ?undefined, fun x hx => commit_next.2 (map_ok.2 ⟨x, hx, rfl⟩)⟩
  case undefined =>
    obtain rfl := lookup_error he
    exact ⟨rfl, faultsWith_of_error line (by rw [he, Except.map])⟩

/-- Settles O46: `JMP` resolves its label and goes there. -/
theorem jmpGoesToTheLabel : Obligations.JmpGoesToTheLabel :=
  ⟨fun _ _ => ⟨rfl, rfl, rfl⟩, fun s => ⟨fun ops line => everyHandlerChecksTheOperandCount (.jmp ops line) s,
    fun a line => jumpsTo_of_lookup a line s⟩⟩

/-- R182, R184, R186: an instruction that is a jump on `cond`. -/
theorem conditionalRule_of_exec {mk : Operands → Nat → Instr} {opc : Nat} {cond : State → Bool} (hop : HasOpcode mk opc 1)
    (hexec : ∀ ops line s, exec (mk ops line) s = commit line (withOne ops (jumpIf (cond s) s))) :
    ConditionalRule mk opc cond := by
  refine ⟨hop, fun s => ⟨fun ops line hc => ?count, fun a line => ⟨fun htaken => ?taken, fun hnot => ?notTaken⟩⟩⟩ <;>
    rw [hexec]
  case count => exact faultsWith_of_error line (withOne_of_count_ne hc _)
  case taken =>
    rw [htaken]
    exact jumpsTo_of_lookup a line s
  case notTaken => exact commit_next.2 (jumpIf_ok.2 (.inr ⟨hnot, rfl⟩))

/-- Settles O47: `JZ` is the conditional jump on `ZF`, `JS` the one on `SF`. -/
theorem jzAndJsJumpOnTheirFlags : Obligations.JzAndJsJumpOnTheirFlags :=
  ⟨conditionalRule_of_exec (fun _ _ => ⟨rfl, rfl, rfl⟩) fun _ _ _ => rfl,
    conditionalRule_of_exec (fun _ _ => ⟨rfl, rfl, rfl⟩) fun _ _ _ => rfl⟩

/-- Settles O48: `JNZ` is the conditional jump on the complement of `ZF`. -/
theorem jnzJumpsWhenZeroIsClear : Obligations.JnzJumpsWhenZeroIsClear :=
  conditionalRule_of_exec (fun _ _ => ⟨rfl, rfl, rfl⟩) fun _ _ _ => rfl

/-! ### CALL -/

section
variable {s : State} {a : Operand} (line : Nat)

/-- R188, R220: the stack is the first test (D9). -/
theorem call_overflow (h : s.sp.val = 0) : FaultsWith (exec (.call (.one a) line) s) .stackOverflow line :=
  faultsWith_of_error line (bind_error.2 (.inl (State.push_of_zero s.nextPc h)))

/-- R188, R222: the label is the second. -/
theorem call_lookupFault {e : FaultTag} (hs : 0 < s.sp.val) (h : lookup a s = .error e) :
    FaultsWith (exec (.call (.one a) line) s) e line :=
  faultsWith_of_error line (bind_error.2 (.inr ⟨_, State.push_of_pos s.nextPc hs, bind_error.2 (.inl h)⟩))

/-- R188: both tests passed. -/
theorem call_completes {x : Word} (hs : 0 < s.sp.val) (h : lookup a s = .ok x) :
    ∃ t, exec (.call (.one a) line) s = .next t ∧ Pushed s t (s.pc + 1) ∧ t.pc = x :=
  have hu := State.push_of_pos s.nextPc hs
  ⟨_, commit_next.2 (bind_ok.2 ⟨_, hu, bind_ok.2 ⟨x, h, rfl⟩⟩), pushed_jumpTo x (pushed_of_push hu), rfl⟩

/-! ### RET -/

/-- R190, R221: the stack is the one test. -/
theorem ret_underflow (h : s.sp.val = 256) : FaultsWith (exec (.ret .zero line) s) .stackUnderflow line :=
  faultsWith_of_error line (bind_error.2 (.inl (State.pop_of_empty h)))

/-- R190: the test passed. -/
theorem ret_completes (hs : s.sp.val < 256) :
    exec (.ret .zero line) s = .next ((s.withSp ⟨s.sp.val + 1, by omega⟩).jumpTo (s.memRead s.sp.val)) :=
  commit_next.2 (bind_ok.2 ⟨_, State.pop_of_lt hs, rfl⟩)

end

/-- R188: a call that completes has pushed the index after it. -/
theorem pushed_of_call {ops : Operands} {line : Nat} {s t : State} (h : exec (.call ops line) s = .next t) :
    Pushed s t (s.pc + 1) := by
  obtain ⟨_, x, _, _, hs, rfl⟩ := call_next h
  exact pushed_jumpTo x (pushed_of_push (State.push_of_pos s.nextPc hs))

/-- Settles O49: the two tests in their order, then the push and the jump. -/
theorem callPushesTheReturnAddress : Obligations.CallPushesTheReturnAddress := by
  refine ⟨fun _ _ => ⟨rfl, rfl, rfl⟩, fun s => ⟨fun ops line => everyHandlerChecksTheOperandCount (.call ops line) s,
    fun a line => ⟨call_overflow line, fun hne => ?room⟩⟩⟩
  have hs : 0 < s.sp.val := Nat.pos_of_ne_zero hne
  refine ⟨fun e he => ?undefined, fun x hx => call_completes line hs hx⟩
  case undefined =>
    obtain rfl := lookup_error he
    exact ⟨rfl, call_lookupFault line hs he⟩

/-- Settles O50: the one test, then `SP + 1` and the jump to the popped cell. -/
theorem retGoesToThePoppedCell : Obligations.RetGoesToThePoppedCell := by
  refine ⟨fun _ _ => ⟨rfl, rfl, rfl⟩, fun s => ⟨fun ops line => everyHandlerChecksTheOperandCount (.ret ops line) s,
    fun line => ⟨ret_underflow line, fun hne => ?nonempty⟩⟩⟩
  have hs : s.sp.val < 256 := by omega
  exact ⟨_, ret_completes line hs, rfl, rfl, fun _ => rfl, fun _ => rfl, ⟨rfl, rfl⟩, rfl, rfl, rfl⟩

/-- Settles O51: the call leaves `SP` at the cell that holds the index after it, and the return takes `PC` from that cell. -/
theorem callRetRoundTrip : Obligations.CallRetRoundTrip := by
  intro s t u a l l' hcall hspu hcell
  obtain ⟨hsp, htop, _⟩ := pushed_of_call hcall
  have hs : u.sp.val < 256 := by rw [hspu]; omega
  have hreturn : u.memRead u.sp.val = s.pc + 1 := by rw [hspu, hcell, htop]
  refine ⟨_, ret_completes l' hs, hreturn, Fin.ext ?sp, ?cell⟩
  case sp => simp [hspu, hsp]
  case cell =>
    have hbelow : s.sp.val - 1 = u.sp.val := by rw [hspu]; omega
    simp [hbelow, hreturn]

end Sys2Proof.Machine
end

section
/-! The system instructions on the operand list they expect (R200, R202): `OUT` with its entry in the log and on the port, and
`HLT`. -/

namespace Sys2Proof.Machine

open Claims

section
variable {s : State} {src : Operand} (line : Nat)

/-- R200: the read of the operand is the one test. -/
theorem out_readFault {e : FaultTag} (h : readOperand src s = .error e) : FaultsWith (exec (.out (.one src) line) s) e line :=
  faultsWith_of_error line (bind_error.2 (.inl h))

/-- R200: the test passed. -/
theorem out_completes {v : Word} (h : readOperand src s = .ok v) :
    exec (.out (.one src) line) s = .next (s.emit v).advance :=
  commit_next.2 (bind_ok.2 ⟨v, h, rfl⟩)

/-- R202: no test is left after the operand count. -/
theorem hlt_completes : exec (.hlt .zero line) s = .next { s with halted := true } :=
  (commit_next (line := line)).2 (withNone_ok.2 ⟨rfl, rfl⟩)

end

/-- R36: the rule's three entries, one of each sign (K5). -/
theorem renderedLog_of_signs {s : State} (h : s.out = [120, 0, -5]) : s.renderedLog = ["120", "0", "-5"] := by
  rw [State.renderedLog, h]
  decide

/-- Settles O52: the read, then the entry at the end of the log, which is what the port shows. -/
theorem outAppendsTheValue : Obligations.OutAppendsTheValue :=
  ⟨fun _ _ => ⟨rfl, rfl, rfl⟩, fun s => ⟨fun ops line => everyHandlerChecksTheOperandCount (.out ops line) s,
    fun _ line => ⟨fun _ => out_readFault line, fun _ hv =>
      ⟨out_completes line hv, emitted_of_append rfl, renderedLog_of_signs rfl⟩⟩⟩⟩

/-- Settles O53: `HLT` has no test after its count; from a halted state every `STEP` is idle, and a `RESET` constructs anew. -/
theorem hltSetsHalted : Obligations.HltSetsHalted :=
  ⟨fun _ _ => ⟨rfl, rfl, rfl⟩, fun s => ⟨fun ops line => everyHandlerChecksTheOperandCount (.hlt ops line) s,
    hlt_completes, runCommands_replicate (command_step_of_halted rfl), State.construct_halted s.params⟩⟩

end Sys2Proof.Machine
end

section
/-! What a fault carries (R211 to R213): the handlers raise every fault but that of the fetch (R215 to R222), so a step's fault
is by its branch of R129 the fetch's, with no line, or one of a fetched word, with that word's line. The codes on the port. -/

namespace Sys2Proof.Machine

/-! ### A handler raises no fault of the fetch -/

/-- The part of a handler completes, or raises a fault other than `ExecutionOutOfBounds`. -/
def NoFetchFault {α : Type} (x : Except FaultTag α) : Prop := x ≠ .error .executionOutOfBounds

namespace NoFetchFault

variable {α β : Type}

theorem ok (a : α) : NoFetchFault (.ok a) := nofun

theorem error {e : FaultTag} (he : e ≠ .executionOutOfBounds) : NoFetchFault (.error e : Except FaultTag α) :=
  fun h => he (Except.error.inj h)

/-- A test that raises one fault or lets its value through (R51, R142, R150 to R160). -/
theorem test {c : Prop} [Decidable c] {e : FaultTag} {a : α} (he : e ≠ .executionOutOfBounds) :
    NoFetchFault (if c then .error e else .ok a) := by
  split
  · exact error he
  · exact ok a

theorem bind {x : Except FaultTag α} {f : α → Except FaultTag β} (hx : NoFetchFault x) (hf : ∀ a, NoFetchFault (f a)) :
    NoFetchFault (x >>= f) := fun h => by
  obtain hfirst | ⟨a, _, hsecond⟩ := bind_error.1 h
  · exact hx hfirst
  · exact hf a hsecond

theorem map {x : Except FaultTag α} (f : α → β) (hx : NoFetchFault x) : NoFetchFault (x.map f) := by
  cases x with
  | ok a => exact ok (f a)
  | error e => exact error fun he => hx (he ▸ rfl)

/-! The operand-count tests (R124). -/

theorem withNone {h : Except FaultTag State} (ops : Operands) (hh : NoFetchFault h) : NoFetchFault (withNone ops h) := by
  cases ops with
  | zero => exact hh
  | one | two | more => exact error nofun

theorem withOne {h : Operand → Except FaultTag State} (ops : Operands) (hh : ∀ a, NoFetchFault (h a)) :
    NoFetchFault (withOne ops h) := by
  cases ops with
  | one a => exact hh a
  | zero | two | more => exact error nofun

theorem withTwo {h : Operand → Operand → Except FaultTag State} (ops : Operands) (hh : ∀ a b, NoFetchFault (h a b)) :
    NoFetchFault (withTwo ops h) := by
  cases ops with
  | two a b => exact hh a b
  | zero | one | more => exact error nofun

/-! The resolvers and the stack (R63 to R65, R96, R220, R221). -/

theorem effectiveAddress (op : Operand) (s : State) : NoFetchFault (effectiveAddress op s) := by
  cases op with
  | dir | ind => exact test nofun
  | reg | imm | name | bad => exact error nofun

theorem readOperand (op : Operand) (s : State) : NoFetchFault (readOperand op s) := by
  cases op with
  | reg | imm => exact ok _
  | dir | ind => exact map _ (effectiveAddress _ s)
  | name | bad => exact error nofun

theorem writeOperand (op : Operand) (v : Int) (s : State) : NoFetchFault (writeOperand op v s) := by
  refine map _ ?_
  cases op with
  | reg => exact ok _
  | dir | ind => exact map _ (effectiveAddress _ s)
  | imm | name | bad => exact error nofun

theorem lookup (op : Operand) (s : State) : NoFetchFault (lookup op s) := fun h => nomatch lookup_error h

theorem push (s : State) (v : Word) : NoFetchFault (s.push v) := test nofun

theorem pop (s : State) : NoFetchFault s.pop := by
  unfold State.pop
  split
  · exact error nofun
  · exact ok _

/-! The tests of the results (R150 to R160, R218, R219). -/

theorem checkOverflow (r : Int) : NoFetchFault (checkOverflow r) := test nofun

theorem checkUpper (r : Int) : NoFetchFault (checkUpper r) := test nofun

theorem checkLower (r : Int) : NoFetchFault (checkLower r) := test nofun

theorem checkedQuotient (d v : Int) : NoFetchFault (checkedQuotient d v) := test nofun

/-! The common shapes of the handlers (R150 to R174, R182). -/

theorem writeResult (dest : Operand) (r : Int) (s : State) : NoFetchFault (writeResult dest r s) :=
  map _ (writeOperand dest r s)

theorem binary {f : Word → Word → Except FaultTag Int} (hf : ∀ d v, NoFetchFault (f d v)) (s : State)
    (dest src : Operand) : NoFetchFault (binary f s dest src) :=
  bind (readOperand dest s) fun d => bind (readOperand src s) fun v => bind (hf d v) fun r => writeResult dest r s

theorem unary {f : Word → Except FaultTag Int} (hf : ∀ d, NoFetchFault (f d)) (s : State) (dest : Operand) :
    NoFetchFault (unary f s dest) :=
  bind (readOperand dest s) fun d => bind (hf d) fun r => writeResult dest r s

theorem jumpIf (taken : Bool) (s : State) (a : Operand) : NoFetchFault (jumpIf taken s a) := by
  cases taken with
  | true => exact map _ (lookup a s)
  | false => exact ok _

end NoFetchFault

/-- R223: a handler ends by committing what raises no `ExecutionOutOfBounds`, which is the step's alone. -/
theorem exec_eq_commit_noFetchFault (i : Instr) (s : State) : ∃ r, exec i s = commit i.line r ∧ NoFetchFault r := by
  cases i with
  | mov ops =>
    exact ⟨_, rfl, .withTwo ops fun a b => .bind (.readOperand b s) fun _ => .bind (.writeOperand a _ s) fun _ => .ok _⟩
  | push ops =>
    exact ⟨_, rfl, .withOne ops fun a => .bind (.readOperand a s) fun v => .bind (.push s v) fun _ => .ok _⟩
  | pop ops =>
    exact ⟨_, rfl, .withOne ops fun a => .bind (.pop s) fun (_, t) => .bind (.writeOperand a _ t) fun _ => .ok _⟩
  | add ops | sub ops | mol ops => exact ⟨_, rfl, .withTwo ops (.binary (fun _ _ => .checkOverflow _) s)⟩
  | div ops => exact ⟨_, rfl, .withTwo ops (.binary (fun _ _ => .checkedQuotient _ _) s)⟩
  | inc ops => exact ⟨_, rfl, .withOne ops (.unary (fun _ => .checkUpper _) s)⟩
  | dec ops => exact ⟨_, rfl, .withOne ops (.unary (fun _ => .checkLower _) s)⟩
  | and ops | or ops => exact ⟨_, rfl, .withTwo ops (.binary (fun _ _ => .ok _) s)⟩
  | not ops => exact ⟨_, rfl, .withOne ops (.unary (fun _ => .ok _) s)⟩
  | jmp ops => exact ⟨_, rfl, .withOne ops fun a => .map _ (.lookup a s)⟩
  | jz ops | jnz ops | js ops => exact ⟨_, rfl, .withOne ops (.jumpIf _ s)⟩
  | cmp ops =>
    exact ⟨_, rfl, .withTwo ops fun a b => .bind (.readOperand a s) fun _ => .bind (.readOperand b s) fun _ => .ok _⟩
  | call ops =>
    exact ⟨_, rfl, .withOne ops fun a => .bind (.push s _) fun _ => .bind (.lookup a s) fun _ => .ok _⟩
  | ret ops => exact ⟨_, rfl, .withNone ops (.bind (.pop s) fun _ => .ok _)⟩
  | out ops => exact ⟨_, rfl, .withOne ops fun a => .bind (.readOperand a s) fun _ => .ok _⟩
  | hlt ops => exact ⟨_, rfl, .withNone ops (.ok _)⟩

/-! ### The line of a fault -/

/-- R213: the line a fault carries for a `LINE` field: 0 is no line. -/
def faultLineOf (line : Nat) : Option Nat := if line = 0 then none else some line

theorem raise_eq_fault_iff {tag tag' : FaultTag} {line : Nat} {line' : Option Nat} :
    raise tag line = .fault (.runtime tag' line') ↔ tag' = tag ∧ line' = faultLineOf line := by
  simp [raise, faultLineOf, eq_comm]

/-- R213, R223: an instruction's fault carries the instruction's line, and is not the fetch's. -/
theorem exec_fault {i : Instr} {s : State} {tag : FaultTag} {line : Option Nat}
    (h : exec i s = .fault (.runtime tag line)) : tag ≠ .executionOutOfBounds ∧ line = faultLineOf i.line := by
  obtain ⟨r, hr, hfetch⟩ := exec_eq_commit_noFetchFault i s
  rw [hr] at h
  cases r with
  | ok t => cases h
  | error e =>
    obtain ⟨rfl, hline⟩ := raise_eq_fault_iff.1 h
    exact ⟨fun he => hfetch (he ▸ rfl), hline⟩

/-- R123: the decoder rejects a word with the line of that word. -/
theorem decode_error_line {w : RomWord} {opc line : Nat} (h : decode w = .error (.unknownOpcode opc line)) :
    line = lineOf w := by
  have hopc : ¬(1 ≤ opcOf w ∧ opcOf w ≤ 21) := fun hin => by
    obtain ⟨i, hi⟩ := (decode_isOk_iff w).2 hin
    cases hi.symm.trans h
  cases (decode_of_unknownOpcode hopc).symm.trans h
  rfl

/-- R129, R213: a step that faults fetched nothing and raised `ExecutionOutOfBounds` with no line, or fetched a word and
raised another fault with that word's line. -/
theorem step_fault {s : State} {tag : FaultTag} {line : Option Nat} (h : step s = .fault (.runtime tag line)) :
    (tag = .executionOutOfBounds ∧ line = none) ∨
      (tag ≠ .executionOutOfBounds ∧ ∃ w, fetch s = some w ∧ line = faultLineOf (lineOf w)) := by
  cases hrun : s.halted with
  | true => cases (step_of_halted hrun).symm.trans h
  | false =>
    cases hw : fetch s with
    | none => exact .inl (raise_eq_fault_iff.1 ((step_of_fetch_none hrun hw).symm.trans h))
    | some w =>
      right
      cases hdec : decode w with
      | error e =>
        obtain ⟨opc, l⟩ := e
        obtain ⟨rfl, rfl⟩ := raise_eq_fault_iff.1 ((step_of_decode_error hrun hw hdec).symm.trans h)
        exact ⟨nofun, w, rfl, by rw [decode_error_line hdec]⟩
      | ok i =>
        obtain ⟨htag, rfl⟩ := exec_fault ((step_of_decode_ok hrun hw hdec).symm.trans h)
        obtain ⟨_, _, _, hline⟩ := decodedInstructionCarriesTheFields w i hdec
        exact ⟨htag, w, rfl, by rw [hline]⟩

/-- Settles O11: of the two kinds of fault only the fetch's has that tag, and it alone has no word. -/
theorem faultCarriesTheSourceLine : Obligations.FaultCarriesTheSourceLine := by
  intro s tag line h
  obtain ⟨htag, hline⟩ | ⟨htag, hword⟩ := step_fault h
  · exact ⟨fun _ => hline, fun hne => absurd htag hne⟩
  · exact ⟨fun heq => absurd heq htag, fun _ => hword⟩

/-! ### The code of a fault -/

/-- R211: the codes of the faults are in 1..10. -/
theorem FaultTag.code_bounds (tag : FaultTag) : 1 ≤ tag.code.toNat ∧ tag.code.toNat ≤ 10 := by
  cases tag <;> decide

theorem FaultTag.code_ne_zero (tag : FaultTag) : tag.code ≠ 0#4 := fun h => by
  obtain ⟨hlow, _⟩ := tag.code_bounds
  simp [h] at hlow

/-- R42, R211: the code and the valid bit on the ports tell whether the response holds a fault. -/
theorem Response.ports_fault (r : Response) :
    r.ports.faultCode.toNat ≤ 10 ∧ (r.ports.faultCode = 0 ↔ r.fault = none) ∧
      (r.ports.faultValid = true ↔ r.fault ≠ none) := by
  obtain ⟨_ | ⟨tag, line⟩, value⟩ := r
  · simp [Response.ports]
  · obtain ⟨_, hhigh⟩ := tag.code_bounds
    simp [Response.ports, hhigh, tag.code_ne_zero]

/-- Settles O13: the ten codes by evaluation; whatever the command and the state, the ports are those of a response. -/
theorem faultCodesAreTheRuleList : Obligations.FaultCodesAreTheRuleList :=
  ⟨rfl, fun c s => (command c s).2.ports_fault⟩

end Sys2Proof.Machine
end

section
/-! Reset (R240 to R242): what construction left, from the parameters alone. A `RESET` depends on nothing else of the state, and
the parameters are what no run changes. -/

namespace Sys2Proof.Machine

/-- R240, R241: a `RESET` constructs again from the executor's parameters and returns nothing. -/
theorem command_reset (s : State) : command .reset s = (State.construct s.params, .empty) := rfl

/-- R240: the empty memory of construction reads as 0 in every cell. -/
theorem State.construct_memRead (p : Params) (a : Nat) : (State.construct p).memRead a = 0 := rfl

/-- Settles O14: `RESET` constructs the state again, and construction sets every element from the parameters. -/
theorem resetRestoresEveryElement : Obligations.ResetRestoresEveryElement := by
  intro s
  rw [command_reset]
  exact ⟨rfl, rfl, State.construct_halted _, State.construct_memRead _, rfl, rfl, rfl, rfl, State.construct_params _, rfl⟩

/-- R12, R235: a run of one sequence of commands after another starts where the first one ended. -/
theorem runCommands_append_fst (cs ds : List Command) (s : State) :
    (runCommands (cs ++ ds) s).1 = (runCommands ds (runCommands cs s).1).1 := by
  induction cs generalizing s with
  | nil => rfl
  | cons c cs ih => exact ih (command c s).1

/-- Settles O15: the last `RESET` constructs from the parameters at the end of the run, which are those at its start. -/
theorem nothingSurvivesReset : Obligations.NothingSurvivesReset := by
  intro cs s
  calc (runCommands (cs ++ [.reset]) s).1
      = (command .reset (runCommands cs s).1).1 := runCommands_append_fst cs [.reset] s
    _ = State.construct (runCommands cs s).1.params := by rw [command_reset]
    _ = State.construct s.params := by rw [parametersAreImmutable cs s]

end Sys2Proof.Machine
end

section
/-! The form of data memory (R51; log entry 4): the list is determined by what the cells read as. -/

namespace Sys2Proof.Machine

/-- Settles O22: a canonical memory lists exactly the cells that do not read as unlisted, in the order of their addresses. -/
theorem memoryIsDeterminedByItsCells : Obligations.MemoryIsDeterminedByItsCells :=
  fun _ _ => Memory.eq_of_read_eq

end Sys2Proof.Machine
end
